-- ==== Sys2Proof/Word.lean ====
section
/-! DEFINITION. The bus word: one W-bit limb (00_scope.md R6, 20_memory.md R50). -/

namespace Sys2Proof

/-- A W-bit word: a limb, a bus word, KEXP or VAL (`00_scope.md` R6, `20_memory.md` R50). -/
abbrev Word (w : Nat) := BitVec w

end Sys2Proof
end

