-- ==== Sys2Proof/Config.lean ====
section
/-! DEFINITION. The two parameters of an instance of the block, W and NMAX (00_scope.md R6, R7), and the
reference instance that the reset state uses. The spec leaves both open and every rule is written for any legal
pair, so the model carries the pair as data and its claims hold for every legal pair (log 1). -/

namespace Sys2Proof

/-- The parameters of one instance: `w` is the limb width W (`00_scope.md` R6: W >= 16), `nmax` the number of limbs
of each buffer (`00_scope.md` R7: NMAX >= 1 and W*NMAX < 2^W). An illegal pair cannot be built. -/
structure Params where
  w : Nat
  nmax : Nat
  w_ge : 16 ≤ w
  nmax_pos : 1 ≤ nmax
  cap_fits : w * nmax < 2 ^ w
deriving DecidableEq, Repr

/-- DESIGN CHOICE (log 1): the instance of `State.reset`. W = 32 is one of the two reference configurations of
`00_scope.md` R6; the spec names no reference NMAX, and 4 limbs hold the largest exponent (128) of the cross-check
of `41_fermat_modmul.md` R130. -/
def Config.reference : Params :=
  { w := 32, nmax := 4, w_ge := by decide, nmax_pos := by decide, cap_fits := by decide }

end Sys2Proof
end

