-- ==== Sys2Proof/Syntax.lean ====
section
/-! DEFINITION. The five commands (30_encoding.md R82), one constructor per row of spec/opcode_table.json. -/

namespace Sys2Proof

/-- A buffer number, B0 to B3 (`10_state.md` R20). The two-bit fields of a command word name exactly these four
(`30_encoding.md` R83), and any combination of them is legal (R87). -/
abbrev Buf := Fin 4

/-- The commands of the block (`30_encoding.md` R82). `rd` is the destination buffer (for ADDS and SUBS also the
source), `ra` and `rb` the source buffers (R81). -/
inductive Instr
  /-- `LDS Bd`, op 0001 (`40_limb_carry.md` R101) -/
  | lds (rd : Buf)
  /-- `ADDS Bd`, op 0010 (`40_limb_carry.md` R103) -/
  | adds (rd : Buf)
  /-- `SUBS Bd`, op 0011 (`40_limb_carry.md` R106) -/
  | subs (rd : Buf)
  /-- `FMUL Bd, Ba, Bb`, op 0100 (`41_fermat_modmul.md` R121) -/
  | fmul (rd ra rb : Buf)
  /-- `MMUL Bd, Ba, Bb`, op 0101 (`42_mersenne_modmul.md` R141) -/
  | mmul (rd ra rb : Buf)
deriving DecidableEq, Repr

end Sys2Proof
end

