-- ==== Sys2Proof/WellFormed.lean ====
section
/-! DEFINITION. The checks on raw data: a pair of parameters (00_scope.md R6, R7) and a command word (30_encoding.md
R82, R85). A term of `Instr` needs no check: its operands are buffer numbers, and every combination of them is legal
(30_encoding.md R87; log 14). A decoded word is checked by the decoder; `wordWf` says the same thing from the opcode
table's match and mask columns, independently of the decoder. -/

namespace Sys2Proof

/-- W >= 16 (`00_scope.md` R6). -/
def widthWf (w : Nat) : Bool := decide (16 ≤ w)

/-- NMAX >= 1 (`00_scope.md` R7). -/
def capacityWf (nmax : Nat) : Bool := decide (1 ≤ nmax)

/-- W*NMAX < 2^W, so that the largest legal exponent fits KEXP (`00_scope.md` R7). -/
def exponentFitsWf (w nmax : Nat) : Bool := decide (w * nmax < 2 ^ w)

/-- The three constraints on the parameters together. -/
def paramsWf (w nmax : Nat) : Bool := widthWf w && capacityWf nmax && exponentFitsWf w nmax

/-- An instance of the block from a pair that passes the check. -/
def Params.ofWf (w nmax : Nat) (h : paramsWf w nmax = true) : Params :=
  { w := w, nmax := nmax
    w_ge := by simp only [paramsWf, widthWf, Bool.and_eq_true, decide_eq_true_eq] at h; exact h.1.1
    nmax_pos := by simp only [paramsWf, capacityWf, Bool.and_eq_true, decide_eq_true_eq] at h; exact h.1.2
    cap_fits := by simp only [paramsWf, exponentFitsWf, Bool.and_eq_true, decide_eq_true_eq] at h; exact h.2 }

/-- One row of the opcode map of `30_encoding.md` R82. -/
structure OpcodeRow where
  mnemonic : String
  matchBits : Nat
  maskBits : Nat
deriving DecidableEq, Repr

/-- The opcode map of `30_encoding.md` R82, its match and mask columns. -/
def opcodeRows : List OpcodeRow :=
  [ { mnemonic := "LDS",  matchBits := 0x0001, maskBits := 0xFFCF },
    { mnemonic := "ADDS", matchBits := 0x0002, maskBits := 0xFFCF },
    { mnemonic := "SUBS", matchBits := 0x0003, maskBits := 0xFFCF },
    { mnemonic := "FMUL", matchBits := 0x0004, maskBits := 0xFC0F },
    { mnemonic := "MMUL", matchBits := 0x0005, maskBits := 0xFC0F } ]

/-- A 16-bit command word is the row's command when (word AND mask) = match (`30_encoding.md` R82). -/
def OpcodeRow.admits (r : OpcodeRow) (word : Nat) : Bool := (word &&& r.maskBits) == r.matchBits

/-- The data word is one that `30_encoding.md` R82 admits: bits [W-1:16] are zero and some row admits bits [15:0]. -/
def wordWf {w : Nat} (d : Word w) : Bool :=
  d.toNat / 2 ^ 16 == 0 && opcodeRows.any fun r => r.admits (d.toNat % 2 ^ 16)

end Sys2Proof
end

