-- ==== Sys2Proof/Decode.lean ====
section
/-! DEFINITION. The decoder of 30_encoding.md R86, total on any W-bit word and rejecting by name, and after it the
encoder, its inverse. -/

namespace Sys2Proof

/-- Why a data word is an illegal command (`30_encoding.md` R85). All of them have the one effect of
`60_exceptions.md` R194; the names are the model's (log 19). -/
inductive Illegal
  /-- one of bits [W-1:16] is not zero -/
  | upperBits
  /-- `rsv`, bits [15:10], is not zero -/
  | reservedField
  /-- `ra` or `rb` is not zero in LDS, ADDS or SUBS (`30_encoding.md` R84) -/
  | unusedField
  /-- `op` is 0000 or in 0110 to 1111 -/
  | opcode
deriving DecidableEq, Repr

/-- `d[hi:lo]`, an unsigned number of hi-lo+1 bits (`00_scope.md` section 6). -/
def bitField {w : Nat} (d : Word w) (hi lo : Nat) : Nat := d.toNat / 2 ^ lo % 2 ^ (hi + 1 - lo)

/-- A two-bit field read as a buffer number (`30_encoding.md` R83), its low bit at `lo`. -/
def bufField {w : Nat} (d : Word w) (lo : Nat) : Buf := Fin.ofNat 4 (bitField d (lo + 1) lo)

/-- `30_encoding.md` R86, line by line. -/
def decode {w : Nat} (d : Word w) : Except Illegal Instr :=
  let rd := bufField d 4
  let ra := bufField d 6
  let rb := bufField d 8
  if d.toNat / 2 ^ 16 ≠ 0 then .error .upperBits
  else if bitField d 15 10 ≠ 0 then .error .reservedField
  else match bitField d 3 0 with
    | 1 => if ra = 0 ∧ rb = 0 then .ok (.lds rd) else .error .unusedField
    | 2 => if ra = 0 ∧ rb = 0 then .ok (.adds rd) else .error .unusedField
    | 3 => if ra = 0 ∧ rb = 0 then .ok (.subs rd) else .error .unusedField
    | 4 => .ok (.fmul rd ra rb)
    | 5 => .ok (.mmul rd ra rb)
    | _ => .error .opcode

/-- The 16-bit command word of an instruction (`30_encoding.md` R86, R89). It does not depend on W (R80). -/
def commandWord : Instr → Nat
  | .lds rd => 1 + 16 * rd.val
  | .adds rd => 2 + 16 * rd.val
  | .subs rd => 3 + 16 * rd.val
  | .fmul rd ra rb => 4 + 16 * rd.val + 64 * ra.val + 256 * rb.val
  | .mmul rd ra rb => 5 + 16 * rd.val + 64 * ra.val + 256 * rb.val

/-- The W-bit data word that issues an instruction when written to CMD (`30_encoding.md` R80, R86). -/
def encode (w : Nat) (i : Instr) : Word w := BitVec.ofNat w (commandWord i)

/-- The instruction the decoder reads from an instruction whose bits are `v`, `nbits` of them; the bits above are 0.
The data word has the reference width; the command word does not depend on W (`30_encoding.md` R80; log 20). -/
def decodeTableWord (nbits v : Nat) : Option Instr :=
  (decode (BitVec.ofNat Config.reference.w (v % 2 ^ nbits))).toOption

end Sys2Proof
end

