-- ==== Sys2Proof/Machine/State.lean ====
section
/-! DEFINITION. The state of the machine: everything 10_state.md section 1 names, the parameters of the instance,
and two fields of the model's own that stand for the bus port (20_memory.md R51). Plain data throughout. -/

namespace Sys2Proof.Machine

/-- The error codes of `60_exceptions.md` R190. Values 5 to 15 of the 4-bit field are never produced, so the type is
the five-value enumeration that `93_implementation_defined.md` U15 allows (log 16). -/
inductive ErrCode
  /-- 0, no error recorded -/
  | none
  /-- 1, `60_exceptions.md` R192 -/
  | invexp
  /-- 2, `60_exceptions.md` R193 -/
  | alloc
  /-- 3, `60_exceptions.md` R194 -/
  | illcmd
  /-- 4, `60_exceptions.md` R195 -/
  | range
deriving DecidableEq, Repr

/-- The limbs: 4 buffers of NMAX limbs of W bits (`10_state.md` R20). `limbs[b][i]` is `LIMB[b][i]`. -/
abbrev Limbs (p : Params) := Vector (Vector (Word p.w) p.nmax) 4

/-- The architectural state of an instance with parameters `p`: `10_state.md` section 1 and nothing else. -/
structure Block (p : Params) where
  /-- `LIMB[b][i]` (`10_state.md` R20) -/
  limbs : Limbs p
  /-- `SF[b]`, the sign flags (`10_state.md` R23) -/
  sf : Vector Bool 4
  /-- KEXP, the modulus exponent K (`10_state.md` R26) -/
  kexp : Word p.w
  /-- VAL, the small value (`10_state.md` R27) -/
  val : Word p.w
  /-- ERR, the sticky error code (`10_state.md` R28) -/
  err : ErrCode
  /-- CF, the carry flag (`10_state.md` R29) -/
  cf : Bool
deriving DecidableEq, Repr

/-- What the outside world can do to the block: offer one bus transaction (`20_memory.md` R51, R55, R56), or pull the
reset line between two transactions (`70_reset_and_hazards.md` R220, R221). -/
inductive Event (p : Params)
  /-- `MemRead(addr, 1)` (`20_memory.md` R55) -/
  | read (addr : Nat)
  /-- `MemWrite(addr, 1, data)` (`20_memory.md` R56) -/
  | write (addr : Nat) (data : Word p.w)
  /-- `rst_n` goes low and high again. `fill` is what the limbs hold afterwards: unspecified by the spec, a free input
  chosen at reset (`10_state.md` R39, `93_implementation_defined.md` U1; log 2). -/
  | reset (fill : Limbs p)
deriving DecidableEq, Repr

/-- The port outputs of a completed transaction (`20_memory.md` R51): `rdata` (none for a write, where the spec says
nothing of it; log 4) and `err`. -/
structure Reply (p : Params) where
  rdata : Option (Word p.w)
  err : Bool
deriving DecidableEq, Repr

/-- The whole machine. -/
structure State where
  /-- W and NMAX (`00_scope.md` R6, R7); no step changes them (log 1) -/
  params : Params
  /-- the architectural state (`10_state.md` section 1) -/
  block : Block params
  /-- the model's own: what the host offers from now on, oldest first (log 3) -/
  pending : List (Event params)
  /-- the model's own: the outputs of the last completed transaction, none before the first one after reset (log 4) -/
  reply : Option (Reply params)
deriving DecidableEq, Repr

/-- Faults: there are none. Every access has an outcome that the spec defines and no access can hang the block
(`93_implementation_defined.md`, introduction); a bus error completes its transaction and is a next state
(`20_memory.md` R58; log 5, log 18). -/
inductive Fault
deriving DecidableEq, Repr

/-- Refusals of the model. -/
inductive Refusal
  /-- Raised by an arm of `exec` whose instruction has no meaning yet; safe. No arm of this model raises it (log 18). -/
  | notModelled (mnemonic : String)
deriving DecidableEq, Repr

/-- The block right after reset with limb contents `fill` (`10_state.md` R39): everything but the limbs has the value
the spec states, the limbs are unspecified. -/
def Block.afterReset {p : Params} (fill : Limbs p) : Block p :=
  { limbs := fill
    sf := Vector.replicate 4 false
    kexp := 0#p.w
    val := 0#p.w
    err := .none
    cf := false }

/-- DESIGN CHOICE (log 2): the one limb filling that `State.reset` uses; the spec gives none. -/
def Limbs.zero (p : Params) : Limbs p := Vector.replicate 4 (Vector.replicate p.nmax 0#p.w)

/-- The machine after reset (`10_state.md` R39) at the reference instance (log 1), with the limbs at the value named in
log 2, nothing offered yet (log 3) and no transaction completed (log 4). -/
def State.reset : State :=
  { params := Config.reference
    block := Block.afterReset (Limbs.zero Config.reference)
    pending := []
    reply := none }

/-- The state with another block. -/
def State.withBlock (s : State) (b : Block s.params) : State := { s with block := b }

/-- The state with the outputs of the transaction that has just completed. -/
def State.withReply (s : State) (r : Reply s.params) : State := { s with reply := some r }

end Sys2Proof.Machine
end

