-- ==== Sys2Proof/Machine/Ops.lean ====
section
/-! DEFINITION. The named operations over the block's registers: derived constants, limb access, the error mechanism
(raising and returning), the command gate, the checked write of KEXP, and the address map. -/

namespace Sys2Proof.Machine

variable {p : Params}

/-! ## Derived constants (00_scope.md R10) -/

/-- KMAX = W*NMAX, the largest legal exponent (`00_scope.md` R9, R10). -/
def kmax (p : Params) : Nat := p.w * p.nmax

/-- ASIZE = 8 + 4*NMAX, the number of addresses the map spans (`00_scope.md` R10, `20_memory.md` R50). -/
def asize (p : Params) : Nat := 8 + 4 * p.nmax

/-- AW = ceil(log2(ASIZE)), the width of the address port (`20_memory.md` R50). -/
def addrWidth (p : Params) : Nat := Nat.log2 (asize p - 1) + 1

/-- n = ceil(K/W) for an exponent K, and 0 for K = 0 (`00_scope.md` R9, R10). -/
def limbCount (w k : Nat) : Nat := (k + w - 1) / w

/-- K, the exponent in KEXP (`10_state.md` R26). -/
def Block.k (b : Block p) : Nat := b.kexp.toNat

/-- n, the number of limbs in use (`10_state.md` R21, R33). -/
def Block.n (b : Block p) : Nat := limbCount p.w b.k

/-! ## Limbs and flags -/

/-- `LIMB[j][i]` (`10_state.md` R20). -/
def Block.limb (b : Block p) (j : Buf) (i : Fin p.nmax) : Word p.w := b.limbs[j][i]

/-- `LIMB[j][i] <- v` and nothing else (`20_memory.md` R54). -/
def Block.setLimb (b : Block p) (j : Buf) (i : Fin p.nmax) (v : Word p.w) : Block p :=
  { b with limbs := b.limbs.set j (b.limbs[j].set i v) }

/-- `SF[j] <- f` (`10_state.md` R23). -/
def Block.setFlag (b : Block p) (j : Buf) (f : Bool) : Block p := { b with sf := b.sf.set j f }

/-! ## The error mechanism (60_exceptions.md section 2) -/

/-- `raise ERR(code)`: the first error wins, nothing else changes (`60_exceptions.md` R196). -/
def Block.raise (b : Block p) (c : ErrCode) : Block p :=
  if b.err = .none then { b with err := c } else b

/-- The return from an error: the host's write to STATUS with data bit 0 set; any other data changes nothing
(`10_state.md` R30, `60_exceptions.md` R199). -/
def Block.writeStatus (b : Block p) (d : Word p.w) : Block p :=
  if d.toNat % 2 = 1 then { b with err := .none } else b

/-- The gate and the checks of a decoded command, in the order of `60_exceptions.md` R197: line 1 (a recorded error
drops the command), line 3 (no exponent), line 4 (`valid` says that the operand check, if the command has one, passes),
line 5 (perform). Line 2 is the decoder's, before this (log 20). -/
def Block.gated (b : Block p) (valid : Bool) (performed : Block p) : Block p :=
  if b.err ≠ .none then b
  else if b.k = 0 then b.raise .invexp
  else if valid = false then b.raise .range
  else performed

/-- The checked write of KEXP: zero first, then too large, then accepted (`10_state.md` R26). It is made whatever ERR
holds. -/
def Block.writeKexp (b : Block p) (d : Word p.w) : Block p :=
  if d.toNat = 0 then b.raise .invexp
  else if kmax p < d.toNat then b.raise .alloc
  else { b with kexp := d }

/-! ## The address map (20_memory.md section 2) -/

/-- What a mapped word address names (`20_memory.md` R52). -/
inductive Target (p : Params)
  | cap
  | kexp
  | nlimb
  | val
  | cmd
  | status
  | flags
  | limb (j : Buf) (i : Fin p.nmax)
deriving DecidableEq, Repr

/-- The address of a target (`20_memory.md` R52, R54). -/
def Target.addr : Target p → Nat
  | .cap => 0
  | .kexp => 1
  | .nlimb => 2
  | .val => 3
  | .cmd => 4
  | .status => 5
  | .flags => 6
  | .limb j i => 8 + j.val * p.nmax + i.val

/-- The target that lies `a` words into the limb windows (`20_memory.md` R54). -/
def limbTarget (p : Params) (a : Nat) : Option (Target p) :=
  if h : a < 4 * p.nmax then
    some (.limb ⟨a / p.nmax, Nat.div_lt_of_lt_mul (Nat.mul_comm 4 p.nmax ▸ h)⟩
      ⟨a % p.nmax, Nat.mod_lt a p.nmax_pos⟩)
  else none

/-- The address map (`20_memory.md` R52): none for address 7 and for every address from 8 + 4*NMAX on (log 8). -/
def target (p : Params) : Nat → Option (Target p)
  | 0 => some .cap
  | 1 => some .kexp
  | 2 => some .nlimb
  | 3 => some .val
  | 4 => some .cmd
  | 5 => some .status
  | 6 => some .flags
  | 7 => none
  | a + 8 => limbTarget p a

/-- The address can be put on the port, which has AW address lines (`20_memory.md` R50; log 8). -/
def Event.onPort : Event p → Bool
  | .read a => decide (a < 2 ^ addrWidth p)
  | .write a _ => decide (a < 2 ^ addrWidth p)
  | .reset _ => true

end Sys2Proof.Machine
end

