-- ==== Sys2Proof/Machine/Operands.lean ====
section
/-! DEFINITION. The operand forms: the integer a buffer holds, writing an integer to a buffer (00_scope.md section 6),
the true value of a Fermat residue and the two validity checks (10_state.md R23, R24). -/

namespace Sys2Proof.Machine

variable {p : Params}

/-- The integer a list of limbs spells, least significant first (`10_state.md` R21). -/
def limbsValue {w : Nat} : List (Word w) → Nat
  | [] => 0
  | l :: ls => l.toNat + 2 ^ w * limbsValue ls

/-- The limbs in use of buffer j: limbs 0 to n-1 (`10_state.md` R21, R22), as far as the buffer has them
(log 17). -/
def Block.inUse (b : Block p) (j : Buf) : List (Word p.w) := b.limbs[j].toList.take b.n

/-- `B[j]`, the stored value (`10_state.md` R21). -/
def Block.stored (b : Block p) (j : Buf) : Nat := limbsValue (b.inUse j)

/-- The limb that `B[j] <- v` gives position i of a buffer that held `old` there (`00_scope.md` section 6). -/
def writtenLimb (w n v i : Nat) (old : Word w) : Word w :=
  if i < n then BitVec.ofNat w (v / 2 ^ (w * i)) else old

/-- `B[j] <- v`: limbs 0 to n-1 spell v, limbs from n on are not written (`00_scope.md` section 6). -/
def Block.store (b : Block p) (j : Buf) (v : Nat) : Block p :=
  { b with limbs := b.limbs.set j (b.limbs[j].mapIdx fun i old => writtenLimb p.w b.n v i old) }

/-- The true value of a Fermat residue: stored plus flag times 2^K (`10_state.md` R23). -/
def Block.trueValue (b : Block p) (j : Buf) : Nat := b.stored j + b.sf[j].toNat * 2 ^ b.k

/-- Buffer j holds a valid Fermat residue (`10_state.md` R24). -/
def Block.validFermat (b : Block p) (j : Buf) : Bool :=
  decide (b.stored j < 2 ^ b.k) && (!b.sf[j] || decide (b.stored j = 0))

/-- Buffer j holds a valid Mersenne residue; the flag is not looked at (`10_state.md` R24). -/
def Block.validMersenne (b : Block p) (j : Buf) : Bool := decide (b.stored j < 2 ^ b.k)

end Sys2Proof.Machine
end

