-- ==== Sys2Proof/Machine/Flags.lean ====
section
/-! DEFINITION. The flag computations: carry and borrow (40_limb_carry.md R103, R106), the STATUS and FLAGS words
(10_state.md R30, R31) and the error numbers (60_exceptions.md R190). -/

namespace Sys2Proof.Machine

variable {p : Params}

/-- The number of an error code (`60_exceptions.md` R190). -/
def ErrCode.code : ErrCode → Nat
  | .none => 0
  | .invexp => 1
  | .alloc => 2
  | .illcmd => 3
  | .range => 4

/-- 2^(W*n), the boundary of the carry primitives (`40_limb_carry.md` R110). -/
def Block.boundary (b : Block p) : Nat := 2 ^ (p.w * b.n)

/-- The carry out of limb n-1 of an exact sum (`40_limb_carry.md` R103). -/
def Block.carryOut (b : Block p) (t : Nat) : Bool := decide (b.boundary ≤ t)

/-- The borrow out of limb n-1 of an exact difference (`40_limb_carry.md` R106). -/
def borrowOut (t : Int) : Bool := decide (t < 0)

/-- The STATUS word: ERR in bits [3:0], CF in bit 4, zero above (`10_state.md` R30). -/
def Block.statusWord (b : Block p) : Word p.w := BitVec.ofNat p.w (b.err.code + 16 * b.cf.toNat)

/-- The FLAGS word: SF[j] in bit j, zero above (`10_state.md` R31). -/
def Block.flagsWord (b : Block p) : Word p.w :=
  BitVec.ofNat p.w (b.sf[0].toNat + 2 * b.sf[1].toNat + 4 * b.sf[2].toNat + 8 * b.sf[3].toNat)

/-- A write to FLAGS: SF[j] <- data bit j for all four j, the other data bits ignored (`10_state.md` R31). -/
def Block.writeFlags (b : Block p) (d : Word p.w) : Block p :=
  { b with sf := #v[d.getLsbD 0, d.getLsbD 1, d.getLsbD 2, d.getLsbD 3] }

end Sys2Proof.Machine
end

