-- ==== Sys2Proof/Machine/Carry.lean ====
section
/-! DEFINITION. The limb buffer and carry primitives: LDS, ADDS and SUBS (40_limb_carry.md R100 to R107). -/

namespace Sys2Proof.Machine

variable {p : Params}

/-- LDS performed: `B[rd] <- VAL`, `SF[rd] <- 0` (`40_limb_carry.md` R101). -/
def Block.loadSmall (b : Block p) (rd : Buf) : Block p := (b.store rd b.val.toNat).setFlag rd false

/-- ADDS performed: the exact sum, its low W*n bits stored, its carry in CF (`40_limb_carry.md` R103; log 21). -/
def Block.addSmall (b : Block p) (rd : Buf) : Block p :=
  let t := b.stored rd + b.val.toNat
  { b.store rd (t % b.boundary) with cf := b.carryOut t }

/-- SUBS performed: the exact difference, wrapped at 2^(W*n), its borrow in CF (`40_limb_carry.md` R106; log 21). -/
def Block.subSmall (b : Block p) (rd : Buf) : Block p :=
  let t : Int := (b.stored rd : Int) - b.val.toNat
  { b.store rd (t % (b.boundary : Int)).toNat with cf := borrowOut t }

/-- `LDS Bd` (`40_limb_carry.md` R100, R101). -/
def execLds (rd : Buf) (s : State) : Host.Outcome State Fault Refusal :=
  .next (s.withBlock (s.block.gated true (s.block.loadSmall rd)))

/-- `ADDS Bd` (`40_limb_carry.md` R100, R103). -/
def execAdds (rd : Buf) (s : State) : Host.Outcome State Fault Refusal :=
  .next (s.withBlock (s.block.gated true (s.block.addSmall rd)))

/-- `SUBS Bd` (`40_limb_carry.md` R100, R106). -/
def execSubs (rd : Buf) (s : State) : Host.Outcome State Fault Refusal :=
  .next (s.withBlock (s.block.gated true (s.block.subSmall rd)))

end Sys2Proof.Machine
end

