-- ==== Sys2Proof/Machine/Fermat.lean ====
section
/-! DEFINITION. Modular multiplication for 2^K+1: FMUL (41_fermat_modmul.md R120, R121). -/

namespace Sys2Proof.Machine

variable {p : Params}

/-- A true value in [0, 2^K] written as a Fermat residue: 2^K as zero limbs under a set flag, anything else as its
limbs under a clear flag (`41_fermat_modmul.md` R121). -/
def Block.storeFermat (b : Block p) (rd : Buf) (z : Nat) : Block p :=
  if z = 2 ^ b.k then (b.store rd 0).setFlag rd true else (b.store rd z).setFlag rd false

/-- FMUL performed: the product of the true values, reduced modulo 2^K+1 (`41_fermat_modmul.md` R121). -/
def Block.fermatMul (b : Block p) (rd ra rb : Buf) : Block p :=
  b.storeFermat rd (b.trueValue ra * b.trueValue rb % (2 ^ b.k + 1))

/-- `FMUL Bd, Ba, Bb` (`41_fermat_modmul.md` R120, R121). -/
def execFmul (rd ra rb : Buf) (s : State) : Host.Outcome State Fault Refusal :=
  .next (s.withBlock
    (s.block.gated (s.block.validFermat ra && s.block.validFermat rb) (s.block.fermatMul rd ra rb)))

end Sys2Proof.Machine
end

