-- ==== Sys2Proof/Machine/Mersenne.lean ====
section
/-! DEFINITION. Modular multiplication for 2^K-1: MMUL (42_mersenne_modmul.md R140, R141). -/

namespace Sys2Proof.Machine

variable {p : Params}

/-- MMUL performed: the product of the stored values, reduced modulo 2^K-1; no flag is read or written
(`42_mersenne_modmul.md` R141). -/
def Block.mersenneMul (b : Block p) (rd ra rb : Buf) : Block p :=
  b.store rd (b.stored ra * b.stored rb % (2 ^ b.k - 1))

/-- `MMUL Bd, Ba, Bb` (`42_mersenne_modmul.md` R140, R141). -/
def execMmul (rd ra rb : Buf) (s : State) : Host.Outcome State Fault Refusal :=
  .next (s.withBlock
    (s.block.gated (s.block.validMersenne ra && s.block.validMersenne rb) (s.block.mersenneMul rd ra rb)))

end Sys2Proof.Machine
end

