-- ==== Sys2Proof/Machine/Dispatch.lean ====
section
/-! DEFINITION. The meaning of every instruction, one arm each (30_encoding.md R82). -/

namespace Sys2Proof.Machine

def exec (i : Instr) (s : State) : Host.Outcome State Fault Refusal :=
  match i with
  | .lds rd => Sys2Proof.Machine.execLds rd s
  | .adds rd => Sys2Proof.Machine.execAdds rd s
  | .subs rd => Sys2Proof.Machine.execSubs rd s
  | .fmul rd ra rb => Sys2Proof.Machine.execFmul rd ra rb s
  | .mmul rd ra rb => Sys2Proof.Machine.execMmul rd ra rb s

end Sys2Proof.Machine
end

