-- ==== Sys2Proof/Machine/Bus.lean ====
section
/-! DEFINITION. The bus: what a read returns (20_memory.md R55), what a write does (R56), bus errors (R58), and the
reset line (70_reset_and_hazards.md R220). -/

namespace Sys2Proof.Machine

variable {p : Params}

/-! ## Replies (20_memory.md R51, R58) -/

/-- A read that completes normally. -/
def Reply.data (v : Word p.w) : Reply p := { rdata := some v, err := false }

/-- A write that completes normally, refused and dropped commands and writes included (`60_exceptions.md` R196). -/
def Reply.done : Reply p := { rdata := none, err := false }

/-- A read that ends in a bus error returns 0 (`20_memory.md` R58). -/
def Reply.readError : Reply p := { rdata := some 0#p.w, err := true }

/-- A write that ends in a bus error (`20_memory.md` R58). -/
def Reply.writeError : Reply p := { rdata := none, err := true }

/-! ## Reads -/

/-- The word a mapped address reads as (`20_memory.md` R55; `10_state.md` R26, R27, R30 to R34). -/
def Block.readTarget (b : Block p) : Target p → Word p.w
  | .cap => BitVec.ofNat p.w p.nmax
  | .kexp => b.kexp
  | .nlimb => BitVec.ofNat p.w b.n
  | .val => b.val
  | .cmd => 0#p.w
  | .status => b.statusWord
  | .flags => b.flagsWord
  | .limb j i => b.limb j i

/-- `MemRead(addr, 1)` (`20_memory.md` R55, R58). No read changes the block. -/
def Block.read (b : Block p) (addr : Nat) : Reply p :=
  match target p addr with
  | some t => .data (b.readTarget t)
  | none => .readError

/-! ## Writes -/

/-- A bus write to CMD: the decoder's line of `60_exceptions.md` R197, then the command. Raising ILLCMD changes nothing
while ERR is not 0, which is line 1 of R197 for an illegal word (log 20). -/
def issueCommand (s : State) (d : Word s.params.w) : Host.Outcome State Fault Refusal :=
  match decode d with
  | .error _ => .next (s.withBlock (s.block.raise .illcmd))
  | .ok i => exec i s

/-- The transaction that an outcome belongs to completes normally (`20_memory.md` R57). -/
def completed : Host.Outcome State Fault Refusal → Host.Outcome State Fault Refusal
  | .next s => .next (s.withReply .done)
  | .fault r => .fault r
  | .refused r => .refused r

/-- `MemWrite(addr, 1, d)` (`20_memory.md` R56, R58). -/
def busWrite (s : State) (addr : Nat) (d : Word s.params.w) : Host.Outcome State Fault Refusal :=
  match target s.params addr with
  | some .kexp => completed (.next (s.withBlock (s.block.writeKexp d)))
  | some .val => completed (.next (s.withBlock { s.block with val := d }))
  | some .cmd => completed (issueCommand s d)
  | some .status => completed (.next (s.withBlock (s.block.writeStatus d)))
  | some .flags => completed (.next (s.withBlock (s.block.writeFlags d)))
  | some (.limb j i) => completed (.next (s.withBlock (s.block.setLimb j i d)))
  | some .cap => .next (s.withReply .writeError)
  | some .nlimb => .next (s.withReply .writeError)
  | none => .next (s.withReply .writeError)

/-- One event performed. Reset puts the block in the reset state with the limbs the event carries and completes no
transaction (`70_reset_and_hazards.md` R220, R221). -/
def perform (s : State) : Event s.params → Host.Outcome State Fault Refusal
  | .read addr => .next (s.withReply (s.block.read addr))
  | .write addr d => busWrite s addr d
  | .reset fill => .next { s with block := Block.afterReset fill, reply := none }

/-- The data word of a bus write that issues the instruction whose bits are `v`, `nbits` of them, the bits above
being 0 (`30_encoding.md` R80). -/
def tableData (w nbits v : Nat) : Word w := BitVec.ofNat w (v % 2 ^ nbits)

end Sys2Proof.Machine
end

