-- ==== Sys2Proof/Machine/Step.lean ====
section
/-! DEFINITION. One step: the next event the host has offered is performed, wholly and before the one after it
(20_memory.md R57). -/

namespace Sys2Proof.Machine

/-- The state after the block has accepted the event at the head of `pending`. -/
def State.accept (s : State) (rest : List (Event s.params)) : State := { s with pending := rest }

/-- One step of the machine. With nothing offered the block is idle and keeps all its state (`60_exceptions.md` R210;
log 7). -/
def step (s : State) : Host.Outcome State Fault Refusal :=
  match s.pending with
  | [] => .next s
  | e :: rest => perform (s.accept rest) e

/-- The host offers, before anything else it had to offer, one bus write of the instruction's word to CMD, address 4
(`10_state.md` R34). The block fetches nothing and holds no program (`10_state.md` R25; log 6). -/
def State.withFetchWord (s : State) (nbits w : Nat) : State :=
  { s with pending := .write 4 (tableData s.params.w nbits w) :: s.pending }

end Sys2Proof.Machine
end

