-- ==== Sys2Proof/Machine/Asm.lean ====
section
/-! DEFINITION. The assembler notation (30_encoding.md R89, R90): each line is one or more bus transactions of the
host. Host data are integers; a transaction carries the low W bits of them. -/

namespace Sys2Proof.Machine

/-- A transaction as a host writes it (`00_scope.md` section 6): `MemRead(addr, 1)` or `MemWrite(addr, 1, data)`. -/
inductive Txn
  | read (addr : Nat)
  | write (addr data : Nat)
deriving DecidableEq, Repr

/-- The event of a transaction on an instance of the block. -/
def Txn.event (p : Params) : Txn → Event p
  | .read addr => .read addr
  | .write addr data => .write addr (BitVec.ofNat p.w data)

/-- A line of a program: a command (`30_encoding.md` R89) or a pseudo-instruction or host directive (R90). -/
inductive AsmLine
  | command (i : Instr)
  | fsqr (bd ba : Buf)
  | msqr (bd ba : Buf)
  | setk (k : Nat)
  | setv (v : Nat)
  | clrerr
  | setf (m : Nat)
  | rdst
  | rdf
  | rdn
  | rdcap
  | wrl (b : Buf) (i v : Nat)
  | rdl (b : Buf) (i : Nat)
  | ldi (b : Buf) (x : Nat)
  | ldsv (bd : Buf) (v : Nat)
deriving DecidableEq, Repr

/-- The word address of limb i of buffer b (`20_memory.md` R54). -/
def limbAddr (p : Params) (b : Buf) (i : Nat) : Nat := 8 + b.val * p.nmax + i

/-- The n writes that place an integer in a buffer, least significant limb first (`20_memory.md` R68). -/
def loadInteger (p : Params) (n : Nat) (b : Buf) (x : Nat) : List Txn :=
  (List.range n).map fun i => .write (limbAddr p b i) (x / 2 ^ (p.w * i) % 2 ^ p.w)

/-- The n reads that fetch a buffer, least significant limb first (`20_memory.md` R68). -/
def readInteger (p : Params) (n : Nat) (b : Buf) : List Txn :=
  (List.range n).map fun i => .read (limbAddr p b i)

/-- The transactions of a line, `n` the number of limbs in use (`30_encoding.md` R89, R90). -/
def AsmLine.expand (p : Params) (n : Nat) : AsmLine → List Txn
  | .command i => [.write 4 (commandWord i)]
  | .fsqr bd ba => [.write 4 (commandWord (.fmul bd ba ba))]
  | .msqr bd ba => [.write 4 (commandWord (.mmul bd ba ba))]
  | .setk k => [.write 1 k]
  | .setv v => [.write 3 v]
  | .clrerr => [.write 5 1]
  | .setf m => [.write 6 m]
  | .rdst => [.read 5]
  | .rdf => [.read 6]
  | .rdn => [.read 2]
  | .rdcap => [.read 0]
  | .wrl b i v => [.write (limbAddr p b i) v]
  | .rdl b i => [.read (limbAddr p b i)]
  | .ldi b x => loadInteger p n b x
  | .ldsv bd v => [.write 3 v, .write 4 (commandWord (.lds bd))]

end Sys2Proof.Machine
end

