-- ==== Sys2Proof/Machine/Driver.lean ====
section
/-! DEFINITION. The host sequences (43_host_sequences.md): host software that drives the block through `step`, one
transaction at a time, and decides everything else itself (R160, R161). Nothing here is hardware (00_scope.md R4; log
15). -/

namespace Sys2Proof.Machine

/-- How an invocation fails (`43_host_sequences.md` R162, R165, R167, R170). -/
inductive HostError
  /-- the document's InvalidExponent: the host's range check or ERR code 1 -/
  | invalidExponent
  /-- the document's AllocationFailure: ERR code 2 -/
  | allocationFailure
  /-- ERR not 0 after the last command; cannot happen on the block (`43_host_sequences.md` R166) -/
  | internal
  /-- `mersennePrimeP` called with k < 2, outside its precondition (`93_implementation_defined.md` U20; log 15) -/
  | precondition
deriving DecidableEq, Repr

/-! ## Offering transactions -/

/-- One transaction offered and completed: one step of the machine (`20_memory.md` R57). -/
def offer (t : Txn) (s : State) : State :=
  match step { s with pending := t.event s.params :: s.pending } with
  | .next s' => s'
  | .fault _ => s
  | .refused _ => s

/-- A line of a program: all its transactions, in order. -/
def issue (l : AsmLine) (s : State) : State :=
  (l.expand s.params s.block.n).foldl (fun s' t => offer t s') s

/-- The data of the last completed transaction, 0 if it had none. -/
def State.lastData (s : State) : Nat :=
  match s.reply with
  | some r => match r.rdata with
    | some v => v.toNat
    | none => 0
  | none => 0

/-- A line that reads: the value read, and the state after. -/
def ask (l : AsmLine) (s : State) : Nat × State :=
  let s' := issue l s
  (s'.lastData, s')

/-- The integer read back from a buffer by n limb reads (`20_memory.md` R68), n and the address of the next limb
counting up. -/
def fetchInteger (w : Nat) : List Txn → State → Nat × State
  | [], s => (0, s)
  | t :: ts, s =>
    let s' := offer t s
    let rest := fetchInteger w ts s'
    (s'.lastData + 2 ^ w * rest.1, rest.2)

/-- Buffer b read back over the limbs in use of exponent k. -/
def fetchBuffer (k : Nat) (b : Buf) (s : State) : Nat × State :=
  fetchInteger s.params.w (readInteger s.params (limbCount s.params.w k) b) s

/-- ERR of a STATUS word (`10_state.md` R30). -/
def statusErr (word : Nat) : Nat := word % 16

/-- CF of a STATUS word (`10_state.md` R30). -/
def statusCarry (word : Nat) : Bool := decide (word / 16 % 2 = 1)

/-! ## Prologue and fix-up -/

/-- The prologue of an invocation with exponent k (`43_host_sequences.md` R162). -/
def prologue (k : Nat) (s : State) : Except HostError State :=
  let r := ask .rdst (issue (.setk k) (issue .clrerr s))
  if statusErr r.1 = 1 then .error .invalidExponent
  else if statusErr r.1 = 2 then .error .allocationFailure
  else .ok r.2

/-- The masking of the top limb in use to K bits, when K is not aligned (`43_host_sequences.md` R163,
`40_limb_carry.md` R110). -/
def maskTop (k : Nat) (b : Buf) (s : State) : State :=
  let top := limbCount s.params.w k - 1
  if k % s.params.w = 0 then s
  else
    let r := ask (.rdl b top) s
    issue (.wrl b top (r.1 % 2 ^ (k % s.params.w))) r.2

/-- `MSUBV(Bb, v)`: subtract a small value modulo 2^K-1 (`43_host_sequences.md` R163). -/
def msubv (k : Nat) (b : Buf) (v : Nat) (s : State) : State :=
  let r := ask .rdst (issue (.command (.subs b)) (issue (.setv v) s))
  if statusCarry r.1 then
    maskTop k b (issue (.command (.subs b)) (issue (.setv 1) r.2))
  else r.2

/-! ## PepinTest -/

/-- The other buffer of the ping-pong pair B0, B1 (`43_host_sequences.md` R165). -/
def otherBuf (cur : Buf) : Buf := if cur = 0 then 1 else 0

/-- The squaring loop of PepinTest (`43_host_sequences.md` R165). -/
def pepinLoop : Nat → Buf → State → Buf × State
  | 0, cur, s => (cur, s)
  | j + 1, cur, s => pepinLoop j (otherBuf cur) (issue (.fsqr (otherBuf cur) cur) s)

/-- `pepinPrimeP(k)` (`43_host_sequences.md` R165): whether F_k is prime, and the machine afterwards. -/
def pepinPrimeP (k : Nat) (s : State) : Except HostError (Bool × State) :=
  if k = 0 then .ok (true, s)
  else if s.params.w ≤ k then .error .invalidExponent
  else match prologue (2 ^ k) s with
    | .error e => .error e
    | .ok s₁ =>
      let s₂ := issue (.command (.lds 0)) (issue (.setv 3) s₁)
      let r := pepinLoop (2 ^ k - 1) 0 s₂
      let st := ask .rdst r.2
      if statusErr st.1 ≠ 0 then .error .internal
      else
        let f := ask .rdf st.2
        .ok (decide (f.1 / 2 ^ r.1.val % 2 = 1), f.2)

/-! ## TrialDivision -/

/-- The 6m±1 wheel from d up to lim, at most `fuel` turns (`43_host_sequences.md` R169). -/
def wheel (x lim : Nat) : Nat → Nat → Bool
  | 0, _ => true
  | fuel + 1, d =>
    if lim < d then true
    else if x % d = 0 then false
    else if d + 2 ≤ lim ∧ x % (d + 2) = 0 then false
    else wheel x lim fuel (d + 6)

/-- The largest r up to the given one with r*r <= x. -/
def floorSqrtBelow (x : Nat) : Nat → Nat
  | 0 => 0
  | r + 1 => if (r + 1) * (r + 1) ≤ x then r + 1 else floorSqrtBelow x r

/-- floor(sqrt(x)). -/
def floorSqrt (x : Nat) : Nat := floorSqrtBelow x x

/-- `TrialDivision(x, bound)`: true when no divisor is found (`43_host_sequences.md` R169). -/
def trialDivision (x bound : Nat) : Bool :=
  if x < 2 then false
  else if x = 2 ∨ x = 3 then true
  else if x % 2 = 0 ∨ x % 3 = 0 then false
  else
    let lim := min bound (floorSqrt x)
    wheel x lim (lim + 1) 5

/-! ## LucasLehmerTest -/

/-- The all-ones pattern of a residue of K bits, as an integer (`42_mersenne_modmul.md` R144). -/
def allOnes (k : Nat) : Nat := 2 ^ k - 1

/-- `iszero(Bb)`: the dual zero test on the value read back (`43_host_sequences.md` R168). -/
def isZeroResidue (k v : Nat) : Bool := decide (v = 0 ∨ v = allOnes k)

/-- The square-and-subtract loop of LucasLehmerTest (`43_host_sequences.md` R167). -/
def lucasLoop (k : Nat) : Nat → Buf → State → Buf × State
  | 0, cur, s => (cur, s)
  | j + 1, cur, s =>
    lucasLoop k j (otherBuf cur) (msubv k (otherBuf cur) 2 (issue (.msqr (otherBuf cur) cur) s))

/-- `mersennePrimeP(k)` (`43_host_sequences.md` R167): whether M_k is prime, and the machine afterwards. -/
def mersennePrimeP (k : Nat) (s : State) : Except HostError (Bool × State) :=
  if k < 2 then .error .precondition
  else if k = 2 then .ok (true, s)
  else if trialDivision k (floorSqrt k) = false then .ok (false, s)
  else if 2 ^ s.params.w ≤ k then .error .invalidExponent
  else match prologue k s with
    | .error e => .error e
    | .ok s₁ =>
      let s₂ := issue (.command (.lds 0)) (issue (.setv 4) s₁)
      let r := lucasLoop k (k - 2) 0 s₂
      let st := ask .rdst r.2
      if statusErr st.1 ≠ 0 then .error .internal
      else
        let v := fetchBuffer k r.1 st.2
        .ok (isZeroResidue k v.1, v.2)

/-! ## Cross-check -/

/-- The block's part of the Fermat cross-check on true values x, y in [0, 2^k]: the true value Z that FMUL leaves in B2
(`43_host_sequences.md` R173, all but its last line). -/
def fermatOnBlock (k x y : Nat) (s : State) : Except HostError (Nat × State) :=
  match prologue k s with
  | .error e => .error e
  | .ok s₁ =>
    let s₂ := issue (.ldi 1 (y % 2 ^ k)) (issue (.ldi 0 (x % 2 ^ k)) s₁)
    let s₃ := issue (.setf ((decide (x = 2 ^ k)).toNat + 2 * (decide (y = 2 ^ k)).toNat)) s₂
    let st := ask .rdst (issue (.command (.fmul 2 0 1)) s₃)
    if statusErr st.1 ≠ 0 then .error .internal
    else
      let v := fetchBuffer k 2 st.2
      let f := ask .rdf v.2
      .ok (v.1 + 2 ^ k * (f.1 / 4 % 2), f.2)

/-- The block's part of the Mersenne cross-check on values x, y in [0, 2^k-1]: the value Z that MMUL leaves in B2
(`43_host_sequences.md` R173, all but its last line). -/
def mersenneOnBlock (k x y : Nat) (s : State) : Except HostError (Nat × State) :=
  match prologue k s with
  | .error e => .error e
  | .ok s₁ =>
    let s₂ := issue (.ldi 1 (y % 2 ^ k)) (issue (.ldi 0 (x % 2 ^ k)) s₁)
    let st := ask .rdst (issue (.command (.mmul 2 0 1)) s₂)
    if statusErr st.1 ≠ 0 then .error .internal
    else .ok (fetchBuffer k 2 st.2)

/-- The last line of the cross-check: whether the Z read back is the expected integer (`43_host_sequences.md` R173). -/
def compareWith (expected : Nat) : Except HostError (Nat × State) → Except HostError (Bool × State)
  | .error e => .error e
  | .ok r => .ok (decide (r.1 = expected), r.2)

/-- The whole Fermat cross-check: Z compared with (x*y) mod (2^k+1) (`43_host_sequences.md` R173). -/
def crossCheckFermat (k x y : Nat) (s : State) : Except HostError (Bool × State) :=
  compareWith (x * y % (2 ^ k + 1)) (fermatOnBlock k x y s)

/-- The whole Mersenne cross-check: Z compared with (x*y) mod (2^k-1) (`43_host_sequences.md` R173). -/
def crossCheckMersenne (k x y : Nat) (s : State) : Except HostError (Bool × State) :=
  compareWith (x * y % (2 ^ k - 1)) (mersenneOnBlock k x y s)

end Sys2Proof.Machine
end

