-- ==== Sys2Proof/Machine/Reference.lean ====
section
/-! DEFINITION. The document's own algorithms, which the spec derives equal to the commands: the ripples of the carry
primitives (40_limb_carry.md R104, R107), the split and correction of the Fermat product (41_fermat_modmul.md R122 to
R124), the schoolbook product (R126), the folded adjustment (R127), and the additive fold of the Mersenne product
(42_mersenne_modmul.md R142, R143). No command is defined by them: which of them an implementation uses is not
observable (00_scope.md R11). -/

namespace Sys2Proof.Machine

/-! ## Ripples -/

/-- The loop of `40_limb_carry.md` R104 over the limbs in use, `c` the carry into the first of them: the limbs
written and the carry out of the last. -/
def rippleAdd {w : Nat} (c : Nat) : List (Word w) → List (Word w) × Nat
  | [] => ([], c)
  | l :: ls =>
    let s := l.toNat + c
    let rest := rippleAdd (s / 2 ^ w) ls
    (BitVec.ofNat w s :: rest.1, rest.2)

/-- The loop of `40_limb_carry.md` R107 over the limbs in use, `c` the amount still to subtract: the limbs written
and the borrow out of the last. -/
def rippleSub {w : Nat} (c : Nat) : List (Word w) → List (Word w) × Nat
  | [] => ([], c)
  | l :: ls =>
    if c ≤ l.toNat then
      let rest := rippleSub 0 ls
      (BitVec.ofNat w (l.toNat - c) :: rest.1, rest.2)
    else
      let rest := rippleSub 1 ls
      (BitVec.ofNat w (l.toNat + 2 ^ w - c) :: rest.1, rest.2)

/-! ## The Fermat product -/

/-- P_lo, the low K bits of a product (`41_fermat_modmul.md` R122). -/
def splitLow (k prod : Nat) : Nat := prod % 2 ^ k

/-- P_hi, the product above bit K (`41_fermat_modmul.md` R122). -/
def splitHigh (k prod : Nat) : Nat := prod / 2 ^ k

/-- The difference and its single correction: add the modulus once if the subtract borrows
(`41_fermat_modmul.md` R123). -/
def fermatReduce (k prod : Nat) : Nat :=
  if splitHigh k prod ≤ splitLow k prod then splitLow k prod - splitHigh k prod
  else splitLow k prod + (2 ^ k + 1) - splitHigh k prod

/-- The table of `41_fermat_modmul.md` R124: the result for stored values `x`, `y` under flags `fx`, `fy`. -/
def fermatTable (k x y : Nat) : Bool → Bool → Nat
  | false, false => fermatReduce k (x * y)
  | true, false => if y = 0 then 0 else 2 ^ k + 1 - y
  | false, true => if x = 0 then 0 else 2 ^ k + 1 - x
  | true, true => 1

/-- The folded form of the adjusted product (`41_fermat_modmul.md` R127), an integer congruent to it. -/
def foldedProduct (sa sb : Nat) (fa fb : Bool) : Int :=
  (sa * sb : Int) - fa.toNat * sb - fb.toNat * sa + fa.toNat * fb.toNat

/-! ## The schoolbook product -/

/-- The inner loop of `41_fermat_modmul.md` R126 for one limb `a` at position `i`: `j` the position in the second
operand, `c` the carry, `prod` the product register P. The last line writes the carry to P[i+n]. -/
def schoolbookRow (w a i : Nat) : List Nat → Nat → Nat → List Nat → List Nat
  | [], j, c, prod => prod.set (i + j) c
  | y :: ys, j, c, prod =>
    let t := prod.getD (i + j) 0 + a * y + c
    schoolbookRow w a i ys (j + 1) (t / 2 ^ w) (prod.set (i + j) (t % 2 ^ w))

/-- The outer loop of `41_fermat_modmul.md` R126 from position `i` on. -/
def schoolbookRows (w : Nat) (ys : List Nat) : List Nat → Nat → List Nat → List Nat
  | [], _, prod => prod
  | a :: as, i, prod => schoolbookRows w ys as (i + 1) (schoolbookRow w a i ys 0 0 prod)

/-- P of `41_fermat_modmul.md` R126: 2n limbs, all zero at first. -/
def schoolbook (w : Nat) (xs ys : List Nat) : List Nat :=
  schoolbookRows w ys xs 0 (List.replicate (2 * ys.length) 0)

/-- The integer that a list of limb-sized integers spells, least significant first. -/
def digitsValue (w : Nat) : List Nat → Nat
  | [] => 0
  | d :: ds => d + 2 ^ w * digitsValue w ds

/-! ## The Mersenne product -/

/-- S = P_hi + P_lo (`42_mersenne_modmul.md` R142). -/
def mersenneSum (k prod : Nat) : Nat := splitHigh k prod + splitLow k prod

/-- The corrective subtraction, at most `fuel` times: while S >= M do S <- S - M (`42_mersenne_modmul.md` R143). -/
def mersenneCorrect (m : Nat) : Nat → Nat → Nat
  | 0, s => s
  | fuel + 1, s => if m ≤ s then mersenneCorrect m fuel (s - m) else s

/-- The document's reduction: the fold, then at most two corrective subtractions (`42_mersenne_modmul.md` R142,
R143). -/
def mersenneReduce (k prod : Nat) : Nat := mersenneCorrect (2 ^ k - 1) 2 (mersenneSum k prod)

end Sys2Proof.Machine
end

