-- ==== Sys2Proof/Safety.lean ====
section
/-! DEFINITION. The terms that claims about runs use: legal register values (10_state.md R41), a block that performs
commands (60_exceptions.md R197), what a command leaves alone (10_state.md R22), and a transaction that went well. -/

namespace Sys2Proof.Machine

variable {p : Params}

/-- The legal values of KEXP: 0 or 1 to W*NMAX (`10_state.md` R41). The other registers have no illegal value in the
model. -/
def Block.Legal (b : Block p) : Prop := b.k ≤ kmax p

/-- KEXP of the machine's block is legal. -/
def State.Legal (s : State) : Prop := s.block.Legal

/-- Lines 1 and 3 of the gate pass: no error is recorded and an exponent is configured (`60_exceptions.md` R197). -/
def Block.Ready (b : Block p) : Prop := b.err = .none ∧ b.k ≠ 0

/-- `b'` holds the limbs of `b` except, possibly, limbs 0 to n-1 of buffer `rd` (`10_state.md` R22). -/
def Block.LimbsKeptBut (b b' : Block p) (rd : Buf) : Prop :=
  (∀ j : Buf, j ≠ rd → b'.limbs[j] = b.limbs[j]) ∧
  ∀ i : Fin p.nmax, b.n ≤ i.val → b'.limb rd i = b.limb rd i

/-- `b'` has the sign flags of `b` except, possibly, that of buffer `rd`. -/
def Block.FlagsKeptBut (b b' : Block p) (rd : Buf) : Prop := ∀ j : Buf, j ≠ rd → b'.sf[j] = b.sf[j]

/-- The registers no command writes have their values of before: KEXP, VAL, and ERR when the command is performed. -/
def Block.ControlKept (b b' : Block p) : Prop := b'.kexp = b.kexp ∧ b'.val = b.val ∧ b'.err = b.err

/-- The buffer a command writes (`30_encoding.md` R81). -/
def destOf : Instr → Buf
  | .lds rd => rd
  | .adds rd => rd
  | .subs rd => rd
  | .fmul rd _ _ => rd
  | .mmul rd _ _ => rd

/-- The operand check of a command: FMUL and MMUL check their sources, the others check nothing (`60_exceptions.md`
R195, `40_limb_carry.md` R100). -/
def Block.OperandsValid (b : Block p) : Instr → Prop
  | .lds _ => True
  | .adds _ => True
  | .subs _ => True
  | .fmul _ ra rb => b.validFermat ra = true ∧ b.validFermat rb = true
  | .mmul _ ra rb => b.validMersenne ra = true ∧ b.validMersenne rb = true

/-- The blocks agree on everything a command can read of buffer `j`: the limbs in use and the sign flag
(`41_fermat_modmul.md` R128, `42_mersenne_modmul.md` R146). -/
def Block.SameOperand (b b' : Block p) (j : Buf) : Prop := b.inUse j = b'.inUse j ∧ b.sf[j] = b'.sf[j]

/-- No error is recorded and the last transaction was no bus error: what a host sequence that goes well sees
(`70_reset_and_hazards.md` R229, `20_memory.md` R58). -/
def State.Well (s : State) : Prop := s.block.err = .none ∧ ∀ r, s.reply = some r → r.err = false

end Sys2Proof.Machine
end

