-- ==== Sys2Proof/Certificates/Slice0/Obligations.lean ====
section
/-! DEFINITION. The statements for the provers. A machine state is written out as ⟨p, b, evs, r⟩: the parameters, the
block, what is still pending, the last reply. Each holds for every legal pair of parameters W and NMAX. Where a
transaction completes, its reply is some r' with `err` as the spec says; what `rdata` carries for a write is the
model's choice (log 4) and no statement rests on it, except the one that says how a step runs a command. -/

open Sys2Proof Sys2Proof.Machine

/-! ## Encoding -/

/-- `30_encoding.md` R86: the decoder and the encoder are inverse, at every width: a data word decodes to an
instruction exactly when it is that instruction's word, and every other word is illegal. -/
def Obligations.DecodeEncodeAgree : Prop :=
  ∀ w : Nat, 16 ≤ w → ∀ (d : Word w) (i : Instr),
    decode (encode w i) = .ok i ∧ (decode d = .ok i ↔ d.toNat = commandWord i) ∧
    ((∀ i', d.toNat ≠ commandWord i') → ∃ e, decode d = .error e)

/-- `30_encoding.md` R84: an unused field must be zero, and each legal command has exactly one encoding. -/
def Obligations.EachCommandHasOneEncoding : Prop :=
  ∀ w : Nat, 16 ≤ w → ∀ d : Word w,
    (∀ (i : Instr) (d' : Word w), decode d = .ok i → decode d' = .ok i → d = d') ∧
    (1 ≤ d.toNat % 16 → d.toNat % 16 ≤ 3 → d.toNat / 64 % 4 ≠ 0 ∨ d.toNat / 256 % 4 ≠ 0 → ∃ e, decode d = .error e)

/-- `30_encoding.md` R82, R85: the decoder accepts a data word as a command exactly when the opcode map's match and
mask columns do, and bits [W-1:16] are zero. -/
def Obligations.DecoderAcceptsTheOpcodeMap : Prop :=
  ∀ w : Nat, 16 ≤ w → ∀ d : Word w,
    ((∃ rd, decode d = .ok (.lds rd)) ↔ d.toNat < 2 ^ 16 ∧ d.toNat &&& 0xFFCF = 0x0001) ∧
    ((∃ rd, decode d = .ok (.adds rd)) ↔ d.toNat < 2 ^ 16 ∧ d.toNat &&& 0xFFCF = 0x0002) ∧
    ((∃ rd, decode d = .ok (.subs rd)) ↔ d.toNat < 2 ^ 16 ∧ d.toNat &&& 0xFFCF = 0x0003) ∧
    ((∃ rd ra rb, decode d = .ok (.fmul rd ra rb)) ↔ d.toNat < 2 ^ 16 ∧ d.toNat &&& 0xFC0F = 0x0004) ∧
    ((∃ rd ra rb, decode d = .ok (.mmul rd ra rb)) ↔ d.toNat < 2 ^ 16 ∧ d.toNat &&& 0xFC0F = 0x0005)

/-- `30_encoding.md` R91: the worked encodings, legal and illegal, as 32-bit data words. -/
def Obligations.WorkedEncodingsDecode : Prop :=
  decode (0x0001#32) = .ok (.lds 0) ∧ decode (0x0021#32) = .ok (.lds 2) ∧
  decode (0x0002#32) = .ok (.adds 0) ∧ decode (0x0013#32) = .ok (.subs 1) ∧
  decode (0x0014#32) = .ok (.fmul 1 0 0) ∧ decode (0x0144#32) = .ok (.fmul 0 1 1) ∧
  decode (0x0124#32) = .ok (.fmul 2 0 1) ∧ decode (0x0015#32) = .ok (.mmul 1 0 0) ∧
  decode (0x0145#32) = .ok (.mmul 0 1 1) ∧ decode (0x01B5#32) = .ok (.mmul 3 2 1) ∧
  (∃ e, decode (0x0000#32) = .error e) ∧ (∃ e, decode (0x0006#32) = .error e) ∧
  (∃ e, decode (0x0041#32) = .error e) ∧ (∃ e, decode (0x0404#32) = .error e) ∧
  (∃ e, decode (0x00010004#32) = .error e)

/-! ## The step -/

/-- `10_state.md` R34: a write of d to CMD issues the command encoded by d, and completes with the command; CMD stores
nothing. Beside `exec`, the step takes the transaction off `pending` and records its normal completion (`completed`;
its `rdata` is the model's choice, log 4). -/
def Obligations.StepRunsTheDecodedCommand : Prop :=
  ∀ (p : Params) (b : Block p) (evs : List (Event p)) (r : Option (Reply p)) (d : Word p.w) (i : Instr),
    decode d = .ok i → step ⟨p, b, .write 4 d :: evs, r⟩ = completed (exec i ⟨p, b, evs, r⟩)

/-- `10_state.md` R38, `20_memory.md` R57, introduction of `93_implementation_defined.md`: every event is answered, and
its effect is a function of the architectural state and of the event; what is pending after it and what was answered
before it play no part. -/
def Obligations.EventEffectIsAFunctionOfBlockAndEvent : Prop :=
  ∀ (p : Params) (b : Block p) (e : Event p), ∃ (b' : Block p) (r' : Option (Reply p)),
    ∀ (evs : List (Event p)) (r : Option (Reply p)), step ⟨p, b, e :: evs, r⟩ = .next ⟨p, b', evs, r'⟩

/-- `60_exceptions.md` R210: with nothing offered the block keeps all its state. That such a step is a step is the
model's choice (log 7). -/
def Obligations.IdleStepKeepsState : Prop := ∀ s : State, s.pending = [] → step s = .next s

/-! ## Bus accesses -/

/-- `20_memory.md` R55: what a read returns at every address, and that it changes nothing. -/
def Obligations.ReadsReturnTheMappedWord : Prop :=
  ∀ (p : Params) (b : Block p) (evs : List (Event p)) (r : Option (Reply p)),
    let reads (a : Nat) (v : Word p.w) (err : Bool) : Prop :=
      step ⟨p, b, .read a :: evs, r⟩ = .next ⟨p, b, evs, some { rdata := some v, err := err }⟩
    reads 0 (BitVec.ofNat p.w p.nmax) false ∧ reads 1 b.kexp false ∧ reads 2 (BitVec.ofNat p.w b.n) false ∧
    reads 3 b.val false ∧ reads 4 0#p.w false ∧ reads 5 b.statusWord false ∧ reads 6 b.flagsWord false ∧
    (∀ (j : Buf) (i : Fin p.nmax), reads (8 + j.val * p.nmax + i.val) (b.limb j i) false) ∧
    ∀ a : Nat, a = 7 ∨ 8 + 4 * p.nmax ≤ a → reads a 0#p.w true

/-- `20_memory.md` R58: the accesses that end in a bus error, and that they change no state of the block. -/
def Obligations.BusErrorsChangeNothing : Prop :=
  ∀ (p : Params) (b : Block p) (evs : List (Event p)) (r : Option (Reply p)) (a : Nat) (d : Word p.w),
    (a = 7 ∨ 8 + 4 * p.nmax ≤ a →
      step ⟨p, b, .read a :: evs, r⟩ = .next ⟨p, b, evs, some { rdata := some 0#p.w, err := true }⟩) ∧
    (a = 0 ∨ a = 2 ∨ a = 7 ∨ 8 + 4 * p.nmax ≤ a →
      ∃ r' : Reply p, r'.err = true ∧ step ⟨p, b, .write a d :: evs, r⟩ = .next ⟨p, b, evs, some r'⟩)

/-- `20_memory.md` R54: the limb window, whatever ERR and K are. -/
def Obligations.LimbWindowReadsAndWritesOneLimb : Prop :=
  ∀ (p : Params) (b : Block p) (evs : List (Event p)) (r : Option (Reply p)) (j : Buf) (i : Fin p.nmax) (v : Word p.w),
    step ⟨p, b, .read (8 + j.val * p.nmax + i.val) :: evs, r⟩ =
      .next ⟨p, b, evs, some { rdata := some (b.limb j i), err := false }⟩ ∧
    ∃ (b' : Block p) (r' : Reply p), r'.err = false ∧
      step ⟨p, b, .write (8 + j.val * p.nmax + i.val) v :: evs, r⟩ = .next ⟨p, b', evs, some r'⟩ ∧
      b'.limb j i = v ∧ (∀ j' i', (j', i') ≠ (j, i) → b'.limb j' i' = b.limb j' i') ∧
      b'.sf = b.sf ∧ b'.kexp = b.kexp ∧ b'.val = b.val ∧ b'.err = b.err ∧ b'.cf = b.cf

/-- `60_exceptions.md` R193 (and the rest of the checked write, `10_state.md` R26): a write of KEXP is refused with
INVEXP when zero, with ALLOC when above W*NMAX, and otherwise accepted, whatever ERR holds. -/
def Obligations.KexpWriteIsChecked : Prop :=
  ∀ (p : Params) (b : Block p) (evs : List (Event p)) (r : Option (Reply p)) (d : Word p.w),
    ∃ r' : Reply p, r'.err = false ∧
      (d.toNat = 0 → step ⟨p, b, .write 1 d :: evs, r⟩ =
        .next ⟨p, { b with err := if b.err = .none then .invexp else b.err }, evs, some r'⟩) ∧
      (p.w * p.nmax < d.toNat → step ⟨p, b, .write 1 d :: evs, r⟩ =
        .next ⟨p, { b with err := if b.err = .none then .alloc else b.err }, evs, some r'⟩) ∧
      (1 ≤ d.toNat → d.toNat ≤ p.w * p.nmax → step ⟨p, b, .write 1 d :: evs, r⟩ =
        .next ⟨p, { b with kexp := d }, evs, some r'⟩)

/-- `10_state.md` R27: VAL is read and written by the bus, never refused, and changed by no command. -/
def Obligations.ValRegisterReadsAndWrites : Prop :=
  ∀ (p : Params) (b : Block p) (evs : List (Event p)) (r : Option (Reply p)) (v : Word p.w),
    step ⟨p, b, .read 3 :: evs, r⟩ = .next ⟨p, b, evs, some { rdata := some b.val, err := false }⟩ ∧
    (∃ r' : Reply p, r'.err = false ∧
      step ⟨p, b, .write 3 v :: evs, r⟩ = .next ⟨p, { b with val := v }, evs, some r'⟩) ∧
    (∀ i : Instr, ∃ b' : Block p, exec i ⟨p, b, evs, r⟩ = .next ⟨p, b', evs, r⟩ ∧ b'.val = b.val) ∧
    State.reset.block.val.toNat = 0

/-- `10_state.md` R30: the STATUS word, and what writing it does. -/
def Obligations.StatusRegisterReadsAndClears : Prop :=
  ∀ (p : Params) (b : Block p) (evs : List (Event p)) (r : Option (Reply p)),
    (∃ v : Word p.w,
      step ⟨p, b, .read 5 :: evs, r⟩ = .next ⟨p, b, evs, some { rdata := some v, err := false }⟩ ∧
      v.toNat % 16 = b.err.code ∧ v.getLsbD 4 = b.cf ∧ v.toNat < 2 ^ 5) ∧
    ∀ d : Word p.w, ∃ r' : Reply p, r'.err = false ∧
      step ⟨p, b, .write 5 d :: evs, r⟩ =
        .next ⟨p, if d.getLsbD 0 then { b with err := .none } else b, evs, some r'⟩

/-- `10_state.md` R31: the FLAGS word, and what writing it does. -/
def Obligations.FlagsRegisterReadsAndWrites : Prop :=
  ∀ (p : Params) (b : Block p) (evs : List (Event p)) (r : Option (Reply p)),
    (∃ v : Word p.w,
      step ⟨p, b, .read 6 :: evs, r⟩ = .next ⟨p, b, evs, some { rdata := some v, err := false }⟩ ∧
      (∀ j : Buf, v.getLsbD j.val = b.sf[j]) ∧ v.toNat < 2 ^ 4) ∧
    ∀ d : Word p.w, ∃ (b' : Block p) (r' : Reply p), r'.err = false ∧
      step ⟨p, b, .write 6 d :: evs, r⟩ = .next ⟨p, b', evs, some r'⟩ ∧
      (∀ j : Buf, b'.sf[j] = d.getLsbD j.val) ∧ { b' with sf := b.sf } = b

/-- `10_state.md` R32 and R33: CAP reads NMAX and NLIMB reads ceil(KEXP/W), 0 for KEXP = 0; writes to them are bus
errors. -/
def Obligations.CapAndNlimbAreReadOnlyViews : Prop :=
  ∀ (p : Params) (b : Block p) (evs : List (Event p)) (r : Option (Reply p)) (d : Word p.w),
    (∃ v : Word p.w, v.toNat = p.nmax ∧
      step ⟨p, b, .read 0 :: evs, r⟩ = .next ⟨p, b, evs, some { rdata := some v, err := false }⟩) ∧
    (∃ v : Word p.w, b.kexp.toNat ≤ p.w * v.toNat ∧ (b.kexp.toNat ≠ 0 → p.w * (v.toNat - 1) < b.kexp.toNat) ∧
      (b.kexp.toNat = 0 → v.toNat = 0) ∧
      step ⟨p, b, .read 2 :: evs, r⟩ = .next ⟨p, b, evs, some { rdata := some v, err := false }⟩) ∧
    (∃ r' : Reply p, r'.err = true ∧ step ⟨p, b, .write 0 d :: evs, r⟩ = .next ⟨p, b, evs, some r'⟩) ∧
    ∃ r' : Reply p, r'.err = true ∧ step ⟨p, b, .write 2 d :: evs, r⟩ = .next ⟨p, b, evs, some r'⟩

/-- `20_memory.md` R56: writes other than to CMD are idempotent on the block. That the whole reply, `rdata` included, is
the same both times rests on the model's choice of log 4. -/
def Obligations.NonCommandWritesAreIdempotent : Prop :=
  ∀ (p : Params) (b : Block p) (evs : List (Event p)) (r : Option (Reply p)) (a : Nat) (d : Word p.w), a ≠ 4 →
    ∃ (b' : Block p) (r' : Reply p),
      step ⟨p, b, .write a d :: .write a d :: evs, r⟩ = .next ⟨p, b', .write a d :: evs, some r'⟩ ∧
      step ⟨p, b', .write a d :: evs, some r'⟩ = .next ⟨p, b', evs, some r'⟩

/-! ## Errors -/

/-- `60_exceptions.md` R192: the two causes of INVEXP; nothing but ERR changes. -/
def Obligations.InvexpCauses : Prop :=
  ∀ (p : Params) (b : Block p) (evs : List (Event p)) (r : Option (Reply p)),
    (∃ r' : Reply p, r'.err = false ∧ step ⟨p, b, .write 1 0#p.w :: evs, r⟩ =
      .next ⟨p, { b with err := if b.err = .none then .invexp else b.err }, evs, some r'⟩) ∧
    (b.kexp.toNat = 0 → ∀ i : Instr, exec i ⟨p, b, evs, r⟩ =
      .next ⟨p, { b with err := if b.err = .none then .invexp else b.err }, evs, r⟩)

/-- `60_exceptions.md` R194: a write to CMD of a word that is no command raises ILLCMD; nothing but ERR changes. -/
def Obligations.IllegalCommandRaisesIllcmd : Prop :=
  ∀ (p : Params) (b : Block p) (evs : List (Event p)) (r : Option (Reply p)) (d : Word p.w),
    (∀ i : Instr, d.toNat ≠ commandWord i) →
    ∃ r' : Reply p, r'.err = false ∧ step ⟨p, b, .write 4 d :: evs, r⟩ =
      .next ⟨p, { b with err := if b.err = .none then .illcmd else b.err }, evs, some r'⟩

/-- `60_exceptions.md` R195: when FMUL and MMUL raise RANGE and when not; LDS, ADDS and SUBS never do. -/
def Obligations.RangeCauses : Prop :=
  ∀ (p : Params) (b : Block p) (evs : List (Event p)) (r : Option (Reply p)), b.Ready → ∀ rd ra rb : Buf,
    let badFermat (s : Buf) : Prop := 2 ^ b.k ≤ b.stored s ∨ b.sf[s] = true ∧ b.stored s ≠ 0
    let badMersenne (s : Buf) : Prop := 2 ^ b.k ≤ b.stored s
    let refused (i : Instr) : Prop := exec i ⟨p, b, evs, r⟩ = .next ⟨p, { b with err := .range }, evs, r⟩
    let accepted (i : Instr) : Prop := ∃ b' : Block p, exec i ⟨p, b, evs, r⟩ = .next ⟨p, b', evs, r⟩ ∧ b'.err = .none
    (badFermat ra ∨ badFermat rb → refused (.fmul rd ra rb)) ∧
    (¬ (badFermat ra ∨ badFermat rb) → accepted (.fmul rd ra rb)) ∧
    (badMersenne ra ∨ badMersenne rb → refused (.mmul rd ra rb)) ∧
    (¬ (badMersenne ra ∨ badMersenne rb) → accepted (.mmul rd ra rb)) ∧
    accepted (.lds rd) ∧ accepted (.adds rd) ∧ accepted (.subs rd)

/-- `10_state.md` R28, `60_exceptions.md` R196: a recorded error stays until the host clears it or the block is reset,
and while it stands a write to CMD changes nothing at all. -/
def Obligations.ErrorIsStickyAndDropsCommands : Prop :=
  ∀ (p : Params) (b b' : Block p) (evs : List (Event p)) (r r' : Option (Reply p)) (e : Event p),
    b.err ≠ .none → (∀ fill, e ≠ .reset fill) → (∀ d : Word p.w, e = .write 5 d → d.getLsbD 0 = false) →
    step ⟨p, b, e :: evs, r⟩ = .next ⟨p, b', evs, r'⟩ →
    b'.err = b.err ∧ ∀ d : Word p.w, e = .write 4 d → b' = b

/-- `60_exceptions.md` R197: the order of a command's checks, what each line does, and that nothing else is gated. -/
def Obligations.CommandGateAndOrderOfChecks : Prop :=
  ∀ (p : Params) (b : Block p) (evs : List (Event p)) (r : Option (Reply p)),
    (∀ d : Word p.w, ∃ r' : Reply p, r'.err = false ∧ step ⟨p, b, .write 4 d :: evs, r⟩ = .next ⟨p,
      (if b.err ≠ .none then b
      else match decode d with
        | .error _ => { b with err := .illcmd }
        | .ok i =>
          if b.kexp.toNat = 0 then { b with err := .invexp }
          else match i with
            | .lds rd => b.loadSmall rd
            | .adds rd => b.addSmall rd
            | .subs rd => b.subSmall rd
            | .fmul rd ra rb =>
              if b.validFermat ra = true ∧ b.validFermat rb = true then b.fermatMul rd ra rb
              else { b with err := .range }
            | .mmul rd ra rb =>
              if b.validMersenne ra = true ∧ b.validMersenne rb = true then b.mersenneMul rd ra rb
              else { b with err := .range }), evs, some r'⟩) ∧
    ∀ (e : Event p) (c : ErrCode), (∀ d, e ≠ .write 4 d) → ∃ (b₁ b₂ : Block p) (r₁ r₂ : Option (Reply p)),
      step ⟨p, b, e :: evs, r⟩ = .next ⟨p, b₁, evs, r₁⟩ ∧
      step ⟨p, { b with err := c }, e :: evs, r⟩ = .next ⟨p, b₂, evs, r₂⟩ ∧ { b₂ with err := b₁.err } = b₁

/-- `60_exceptions.md` R196 and R197: a legal command on a ready block with valid operands completes with no error
recorded and no bus error. -/
def Obligations.GoodCommandsEndWell : Prop :=
  ∀ (p : Params) (b : Block p) (evs : List (Event p)) (r : Option (Reply p)) (d : Word p.w) (i : Instr),
    b.Ready → b.OperandsValid i → decode d = .ok i →
    ∃ t : State, step ⟨p, b, .write 4 d :: evs, r⟩ = .next t ∧ t.Well

/-! ## LDS, ADDS, SUBS -/

/-- `40_limb_carry.md` R101: LDS, its word, limb by limb and as an integer, with its frame. -/
def Obligations.LdsLoadsSmallValue : Prop :=
  ∀ (p : Params) (b : Block p) (evs : List (Event p)) (r : Option (Reply p)) (rd : Buf), b.Ready → b.Legal →
    decode (BitVec.ofNat p.w (1 + 16 * rd.val)) = .ok (.lds rd) ∧
    ∃ b' : Block p, exec (.lds rd) ⟨p, b, evs, r⟩ = .next ⟨p, b', evs, r⟩ ∧
      (∀ i : Fin p.nmax,
        b'.limb rd i = if i.val = 0 then b.val else if i.val < b.n then 0#p.w else b.limb rd i) ∧
      b'.stored rd = b.val.toNat ∧ b'.sf[rd] = false ∧
      b.LimbsKeptBut b' rd ∧ b.FlagsKeptBut b' rd ∧ b.ControlKept b' ∧ b'.cf = b.cf

/-- `40_limb_carry.md` R103: ADDS, its word, with its carry and its frame. -/
def Obligations.AddsAddsWithCarry : Prop :=
  ∀ (p : Params) (b : Block p) (evs : List (Event p)) (r : Option (Reply p)) (rd : Buf), b.Ready → b.Legal →
    decode (BitVec.ofNat p.w (2 + 16 * rd.val)) = .ok (.adds rd) ∧
    ∃ b' : Block p, exec (.adds rd) ⟨p, b, evs, r⟩ = .next ⟨p, b', evs, r⟩ ∧
      b'.stored rd = (b.stored rd + b.val.toNat) % 2 ^ (p.w * b.n) ∧
      (b'.cf = true ↔ 2 ^ (p.w * b.n) ≤ b.stored rd + b.val.toNat) ∧
      b.LimbsKeptBut b' rd ∧ b'.sf = b.sf ∧ b.ControlKept b'

/-- `40_limb_carry.md` R106: SUBS, its word, with its borrow and its frame. -/
def Obligations.SubsSubtractsWithBorrow : Prop :=
  ∀ (p : Params) (b : Block p) (evs : List (Event p)) (r : Option (Reply p)) (rd : Buf), b.Ready → b.Legal →
    decode (BitVec.ofNat p.w (3 + 16 * rd.val)) = .ok (.subs rd) ∧
    ∃ b' : Block p, exec (.subs rd) ⟨p, b, evs, r⟩ = .next ⟨p, b', evs, r⟩ ∧
      (b'.stored rd : Int) = ((b.stored rd : Int) - b.val.toNat) % 2 ^ (p.w * b.n) ∧
      (b'.cf = true ↔ b.stored rd < b.val.toNat) ∧
      b.LimbsKeptBut b' rd ∧ b'.sf = b.sf ∧ b.ControlKept b'

/-- `40_limb_carry.md` R104: ADDS is the ripple of the carry from limb to limb; the carry after limb 0 is 0 or 1, and a
carry of 0 changes no further limb. -/
def Obligations.AddsIsTheCarryRipple : Prop :=
  ∀ (p : Params) (b : Block p) (evs : List (Event p)) (r : Option (Reply p)) (rd : Buf), b.Ready → b.Legal →
    (∃ b' : Block p, exec (.adds rd) ⟨p, b, evs, r⟩ = .next ⟨p, b', evs, r⟩ ∧
      (b'.inUse rd, b'.cf.toNat) = rippleAdd b.val.toNat (b.inUse rd)) ∧
    (∀ l c : Word p.w, (l.toNat + c.toNat) / 2 ^ p.w ≤ 1) ∧
    ∀ ls : List (Word p.w), rippleAdd 0 ls = (ls, 0)

/-- `40_limb_carry.md` R107: SUBS is the ripple of the borrow from limb to limb. -/
def Obligations.SubsIsTheBorrowRipple : Prop :=
  ∀ (p : Params) (b : Block p) (evs : List (Event p)) (r : Option (Reply p)) (rd : Buf), b.Ready → b.Legal →
    ∃ b' : Block p, exec (.subs rd) ⟨p, b, evs, r⟩ = .next ⟨p, b', evs, r⟩ ∧
      (b'.inUse rd, b'.cf.toNat) = rippleSub b.val.toNat (b.inUse rd)

/-- `40_limb_carry.md` R108: ADDS and SUBS undo each other, with equal CF; two ADDS add both values. -/
def Obligations.AddsAndSubsAreInverse : Prop :=
  ∀ (p : Params) (b : Block p) (evs : List (Event p)) (r : Option (Reply p)) (rd : Buf) (u : Word p.w),
    b.Ready → b.Legal → ∃ b₁ b₂ b₃ b₄ b₅ : Block p,
      exec (.adds rd) ⟨p, b, evs, r⟩ = .next ⟨p, b₁, evs, r⟩ ∧
      exec (.subs rd) ⟨p, b₁, evs, r⟩ = .next ⟨p, b₂, evs, r⟩ ∧ b₂.limbs = b.limbs ∧ b₂.cf = b₁.cf ∧
      exec (.subs rd) ⟨p, b, evs, r⟩ = .next ⟨p, b₃, evs, r⟩ ∧
      exec (.adds rd) ⟨p, b₃, evs, r⟩ = .next ⟨p, b₄, evs, r⟩ ∧ b₄.limbs = b.limbs ∧ b₄.cf = b₃.cf ∧
      exec (.adds rd) ⟨p, { b₁ with val := u }, evs, r⟩ = .next ⟨p, b₅, evs, r⟩ ∧
      b₅.stored rd = (b.stored rd + b.val.toNat + u.toNat) % 2 ^ (p.w * b.n) ∧ b₅.err = .none

/-- `40_limb_carry.md` R110: after a borrow of an amount t <= 2^K, the low K bits of the buffer are 2^K - t; and when K
is aligned the boundary of the primitives is 2^K itself. -/
def Obligations.BorrowMaskedToKBits : Prop :=
  ∀ (p : Params) (b : Block p) (evs : List (Event p)) (r : Option (Reply p)) (rd : Buf), b.Ready → b.Legal →
    (b.stored rd < b.val.toNat → b.val.toNat - b.stored rd ≤ 2 ^ b.k →
      ∃ b' : Block p, exec (.subs rd) ⟨p, b, evs, r⟩ = .next ⟨p, b', evs, r⟩ ∧ b'.cf = true ∧
        (b'.stored rd + (b.val.toNat - b.stored rd)) = 2 ^ (p.w * b.n) ∧
        b'.stored rd % 2 ^ b.k = 2 ^ b.k - (b.val.toNat - b.stored rd)) ∧
    (b.k % p.w = 0 → 2 ^ (p.w * b.n) = 2 ^ b.k)

/-! ## FMUL -/

/-- `41_fermat_modmul.md` R121: FMUL, its word, its result, its flag and its frame. -/
def Obligations.FmulMultipliesModulo : Prop :=
  ∀ (p : Params) (b : Block p) (evs : List (Event p)) (r : Option (Reply p)) (rd ra rb : Buf),
    b.Ready → b.Legal → b.validFermat ra = true → b.validFermat rb = true →
    let z := (b.stored ra + b.sf[ra].toNat * 2 ^ b.k) * (b.stored rb + b.sf[rb].toNat * 2 ^ b.k) % (2 ^ b.k + 1)
    decode (BitVec.ofNat p.w (4 + 16 * rd.val + 64 * ra.val + 256 * rb.val)) = .ok (.fmul rd ra rb) ∧
    ∃ b' : Block p, exec (.fmul rd ra rb) ⟨p, b, evs, r⟩ = .next ⟨p, b', evs, r⟩ ∧
      (z = 2 ^ b.k → b'.stored rd = 0 ∧ b'.sf[rd] = true) ∧
      (z ≠ 2 ^ b.k → b'.stored rd = z ∧ b'.sf[rd] = false) ∧
      b'.validFermat rd = true ∧ b'.trueValue rd = z ∧
      b.LimbsKeptBut b' rd ∧ b.FlagsKeptBut b' rd ∧ b.ControlKept b' ∧ b'.cf = b.cf

/-- `41_fermat_modmul.md` R123 (with the split of R122): for unflagged operands, the difference of the two halves of
the product, corrected once if it borrows, is the result FMUL leaves; it is 2^K exactly when the difference is -1. -/
def Obligations.FmulIsSplitSubtractCorrect : Prop :=
  ∀ (p : Params) (b : Block p) (evs : List (Event p)) (r : Option (Reply p)) (rd ra rb : Buf),
    b.Ready → b.Legal → b.validFermat ra = true → b.validFermat rb = true → b.sf[ra] = false → b.sf[rb] = false →
    let prod := b.stored ra * b.stored rb
    let lo := prod % 2 ^ b.k
    let hi := prod / 2 ^ b.k
    let d : Int := lo - hi
    prod = hi * 2 ^ b.k + lo ∧ hi < 2 ^ b.k ∧ -(2 ^ b.k : Int) < d ∧ d < 2 ^ b.k ∧
    ∃ b' : Block p, exec (.fmul rd ra rb) ⟨p, b, evs, r⟩ = .next ⟨p, b', evs, r⟩ ∧
      b'.trueValue rd = fermatReduce b.k prod ∧
      (0 ≤ d → (b'.trueValue rd : Int) = d ∧ b'.trueValue rd < 2 ^ b.k) ∧
      (d < 0 → (b'.trueValue rd : Int) = d + 2 ^ b.k + 1 ∧ 2 ≤ b'.trueValue rd ∧ b'.trueValue rd ≤ 2 ^ b.k) ∧
      (b'.trueValue rd = 2 ^ b.k ↔ d = -1) ∧ (b'.sf[rd] = true ↔ d = -1) ∧ (b'.sf[rd] = true → b'.stored rd = 0)

/-- `41_fermat_modmul.md` R124: the table of flagged operands. -/
def Obligations.FmulFlaggedOperandsNegate : Prop :=
  ∀ (p : Params) (b : Block p) (evs : List (Event p)) (r : Option (Reply p)) (rd ra rb : Buf),
    b.Ready → b.Legal → b.validFermat ra = true → b.validFermat rb = true →
    let x := b.stored ra
    let y := b.stored rb
    ∃ b' : Block p, exec (.fmul rd ra rb) ⟨p, b, evs, r⟩ = .next ⟨p, b', evs, r⟩ ∧
      b'.trueValue rd = fermatTable b.k x y b.sf[ra] b.sf[rb] ∧
      (b.sf[ra] = false → b.sf[rb] = false → b'.trueValue rd = x * y % (2 ^ b.k + 1)) ∧
      (b.sf[ra] = true → b.sf[rb] = false → b.trueValue ra = 2 ^ b.k ∧
        b'.trueValue rd = (if y = 0 then 0 else 2 ^ b.k + 1 - y) ∧ (b'.sf[rd] = true ↔ y = 1)) ∧
      (b.sf[ra] = false → b.sf[rb] = true → b.trueValue rb = 2 ^ b.k ∧
        b'.trueValue rd = (if x = 0 then 0 else 2 ^ b.k + 1 - x)) ∧
      (b.sf[ra] = true → b.sf[rb] = true → b'.trueValue rd = 1)

/-- `41_fermat_modmul.md` R126: the schoolbook product of the limbs in use is the product that FMUL reduces, for
unflagged operands. -/
def Obligations.FmulFromTheSchoolbookProduct : Prop :=
  ∀ (p : Params) (b : Block p) (evs : List (Event p)) (r : Option (Reply p)) (rd ra rb : Buf),
    b.Ready → b.Legal → b.validFermat ra = true → b.validFermat rb = true → b.sf[ra] = false → b.sf[rb] = false →
    let prod := schoolbook p.w ((b.inUse ra).map BitVec.toNat) ((b.inUse rb).map BitVec.toNat)
    prod.length = 2 * b.n ∧ (∀ x ∈ prod, x < 2 ^ p.w) ∧ digitsValue p.w prod = b.stored ra * b.stored rb ∧
    ∃ b' : Block p, exec (.fmul rd ra rb) ⟨p, b, evs, r⟩ = .next ⟨p, b', evs, r⟩ ∧
      b'.trueValue rd = digitsValue p.w prod % (2 ^ b.k + 1)

/-- `41_fermat_modmul.md` R127: the folded form of the adjustment leaves the same result. -/
def Obligations.FmulFoldedAdjustment : Prop :=
  ∀ (p : Params) (b : Block p) (evs : List (Event p)) (r : Option (Reply p)) (rd ra rb : Buf),
    b.Ready → b.Legal → b.validFermat ra = true → b.validFermat rb = true →
    (b.trueValue ra * b.trueValue rb : Int) % (2 ^ b.k + 1) =
      foldedProduct (b.stored ra) (b.stored rb) b.sf[ra] b.sf[rb] % (2 ^ b.k + 1) ∧
    ∃ b' : Block p, exec (.fmul rd ra rb) ⟨p, b, evs, r⟩ = .next ⟨p, b', evs, r⟩ ∧
      (b'.trueValue rd : Int) = foldedProduct (b.stored ra) (b.stored rb) b.sf[ra] b.sf[rb] % (2 ^ b.k + 1)

/-- `41_fermat_modmul.md` R128 (b), (d), (e): the result is canonical, zero has one representation, and the flag says
exactly that the product is -1. -/
def Obligations.FmulResultIsCanonical : Prop :=
  ∀ (p : Params) (b : Block p) (evs : List (Event p)) (r : Option (Reply p)) (rd ra rb : Buf),
    b.Ready → b.Legal → b.validFermat ra = true → b.validFermat rb = true →
    let x := b.trueValue ra
    let y := b.trueValue rb
    ∃ b' : Block p, exec (.fmul rd ra rb) ⟨p, b, evs, r⟩ = .next ⟨p, b', evs, r⟩ ∧
      b'.stored rd < 2 ^ b.k ∧ (b'.sf[rd] = true → b'.stored rd = 0) ∧
      (b'.trueValue rd = 0 ↔ x = 0 ∨ y = 0 ∨ 2 ^ b.k + 1 ∣ x * y) ∧
      (b'.trueValue rd = 0 → b'.stored rd = 0 ∧ b'.sf[rd] = false) ∧
      (b'.sf[rd] = true ↔ 2 ^ b.k + 1 ∣ x * y + 1)

/-- `41_fermat_modmul.md` R128 (c) and `42_mersenne_modmul.md` R146 (c): both products commute, in every state. -/
def Obligations.ProductsCommute : Prop :=
  ∀ (s : State) (rd ra rb : Buf),
    exec (.fmul rd ra rb) s = exec (.fmul rd rb ra) s ∧ exec (.mmul rd ra rb) s = exec (.mmul rd rb ra) s

/-- `41_fermat_modmul.md` R129: a chain of squarings, each of the destination of the one before, raises the first true
value to the power 2^j. -/
def Obligations.FmulSquaringChain : Prop :=
  ∀ (p : Params) (blocks : Nat → Block p) (dst : Nat → Buf) (evs : List (Event p)) (r : Option (Reply p)),
    (blocks 0).Ready → (blocks 0).Legal → (blocks 0).validFermat (dst 0) = true →
    (∀ j, exec (.fmul (dst (j + 1)) (dst j) (dst j)) ⟨p, blocks j, evs, r⟩ = .next ⟨p, blocks (j + 1), evs, r⟩) →
    ∀ j, (blocks j).validFermat (dst j) = true ∧
      (blocks j).trueValue (dst j) =
        (blocks 0).trueValue (dst 0) ^ 2 ^ j % (2 ^ (blocks 0).k + 1)

/-! ## MMUL -/

/-- `42_mersenne_modmul.md` R141: MMUL, its word, its result and its frame. -/
def Obligations.MmulMultipliesModulo : Prop :=
  ∀ (p : Params) (b : Block p) (evs : List (Event p)) (r : Option (Reply p)) (rd ra rb : Buf),
    b.Ready → b.Legal → b.validMersenne ra = true → b.validMersenne rb = true →
    decode (BitVec.ofNat p.w (5 + 16 * rd.val + 64 * ra.val + 256 * rb.val)) = .ok (.mmul rd ra rb) ∧
    ∃ b' : Block p, exec (.mmul rd ra rb) ⟨p, b, evs, r⟩ = .next ⟨p, b', evs, r⟩ ∧
      b'.stored rd = b.stored ra * b.stored rb % (2 ^ b.k - 1) ∧ b'.stored rd < 2 ^ b.k - 1 ∧
      b.LimbsKeptBut b' rd ∧ b'.sf = b.sf ∧ b.ControlKept b' ∧ b'.cf = b.cf

/-- `42_mersenne_modmul.md` R143 (with the fold of R142): the sum of the two halves of the product, less the modulus at
most once, is the result MMUL leaves. -/
def Obligations.MmulIsFoldAndCorrect : Prop :=
  ∀ (p : Params) (b : Block p) (evs : List (Event p)) (r : Option (Reply p)) (rd ra rb : Buf),
    b.Ready → b.Legal → b.validMersenne ra = true → b.validMersenne rb = true →
    let prod := b.stored ra * b.stored rb
    let lo := prod % 2 ^ b.k
    let hi := prod / 2 ^ b.k
    let m := 2 ^ b.k - 1
    hi + 2 ≤ 2 ^ b.k ∧ hi + lo + 3 ≤ 2 ^ (b.k + 1) ∧
    ∃ b' : Block p, exec (.mmul rd ra rb) ⟨p, b, evs, r⟩ = .next ⟨p, b', evs, r⟩ ∧
      b'.stored rd = mersenneReduce b.k prod ∧
      b'.stored rd = (if m ≤ hi + lo then hi + lo - m else hi + lo) ∧ b'.stored rd < m

/-- `42_mersenne_modmul.md` R145: the loop of R126, read with MMUL's operands, forms the product that MMUL reduces. -/
def Obligations.MmulFromTheSchoolbookProduct : Prop :=
  ∀ (p : Params) (b : Block p) (evs : List (Event p)) (r : Option (Reply p)) (rd ra rb : Buf),
    b.Ready → b.Legal → b.validMersenne ra = true → b.validMersenne rb = true →
    let prod := schoolbook p.w ((b.inUse ra).map BitVec.toNat) ((b.inUse rb).map BitVec.toNat)
    prod.length = 2 * b.n ∧ (∀ x ∈ prod, x < 2 ^ p.w) ∧ digitsValue p.w prod = b.stored ra * b.stored rb ∧
    ∃ b' : Block p, exec (.mmul rd ra rb) ⟨p, b, evs, r⟩ = .next ⟨p, b', evs, r⟩ ∧
      b'.stored rd = digitsValue p.w prod % (2 ^ b.k - 1)

/-- `42_mersenne_modmul.md` R144 and R146 (d): the all-ones pattern, limb by limb; MMUL takes it as zero and never
leaves it; a zero result is all-zero limbs. -/
def Obligations.MmulTakesAllOnesAsZero : Prop :=
  ∀ (p : Params) (b : Block p) (evs : List (Event p)) (r : Option (Reply p)) (rd ra rb : Buf),
    b.Ready → b.Legal → b.validMersenne ra = true → b.validMersenne rb = true →
    (b.stored ra = 2 ^ b.k - 1 ↔ ∀ i : Fin p.nmax, i.val < b.n → (b.limb ra i).toNat =
      if i.val + 1 = b.n ∧ b.k % p.w ≠ 0 then 2 ^ (b.k % p.w) - 1 else 2 ^ p.w - 1) ∧
    ∃ b' : Block p, exec (.mmul rd ra rb) ⟨p, b, evs, r⟩ = .next ⟨p, b', evs, r⟩ ∧
      (b'.stored rd = 0 ↔ 2 ^ b.k - 1 ∣ b.stored ra * b.stored rb) ∧
      (b.stored ra = 2 ^ b.k - 1 → b'.stored rd = 0) ∧
      (b'.stored rd = 0 → ∀ i : Fin p.nmax, i.val < b.n → b'.limb rd i = 0#p.w) ∧
      b'.stored rd ≠ 2 ^ b.k - 1

/-- `42_mersenne_modmul.md` R147: squaring and subtracting 2; the borrow, and the value after the modulus is added by a
second SUBS of 1 and reduction to K bits. -/
def Obligations.LucasLehmerStep : Prop :=
  ∀ (p : Params) (b : Block p) (evs : List (Event p)) (r : Option (Reply p)) (rd ra : Buf),
    b.Ready → b.Legal → 2 ≤ b.k → b.validMersenne ra = true →
    let m : Int := 2 ^ b.k - 1
    let v : Int := b.stored ra
    ∃ b₁ b₂ b₃ : Block p,
      exec (.mmul rd ra ra) ⟨p, b, evs, r⟩ = .next ⟨p, b₁, evs, r⟩ ∧
      exec (.subs rd) ⟨p, { b₁ with val := 2#p.w }, evs, r⟩ = .next ⟨p, b₂, evs, r⟩ ∧
      exec (.subs rd) ⟨p, { b₂ with val := 1#p.w }, evs, r⟩ = .next ⟨p, b₃, evs, r⟩ ∧
      (b₂.cf = true ↔ b₁.stored rd = 0 ∨ b₁.stored rd = 1) ∧
      (b₂.cf = false → (b₂.stored rd : Int) = (v * v - 2) % m) ∧
      (b₂.cf = true → b₃.cf = false ∧ ((b₃.stored rd % 2 ^ b.k : Nat) : Int) = (v * v - 2) % m)

/-! ## What an event changes -/

/-- `10_state.md` R22: limbs not in use take no part in any command, and a write to KEXP changes no limb and no flag.
Blocks that differ only there and in the buffers and flags a command does not read give the same result. -/
def Obligations.CommandsReadOnlyTheirOperands : Prop :=
  ∀ (p : Params) (b c b' c' : Block p) (evs : List (Event p)) (r : Option (Reply p)) (i : Instr),
    b.Legal → b.kexp = c.kexp → b.err = c.err →
    (match i with
      | .lds _ => b.val = c.val
      | .adds rd => b.val = c.val ∧ b.inUse rd = c.inUse rd
      | .subs rd => b.val = c.val ∧ b.inUse rd = c.inUse rd
      | .fmul _ ra rb => b.SameOperand c ra ∧ b.SameOperand c rb
      | .mmul _ ra rb => b.inUse ra = c.inUse ra ∧ b.inUse rb = c.inUse rb) →
    exec i ⟨p, b, evs, r⟩ = .next ⟨p, b', evs, r⟩ → exec i ⟨p, c, evs, r⟩ = .next ⟨p, c', evs, r⟩ →
    b'.err = c'.err ∧ (b'.err = .none → b'.inUse (destOf i) = c'.inUse (destOf i) ∧
      match i with
      | .lds rd => b'.sf[rd] = c'.sf[rd]
      | .adds _ => b'.cf = c'.cf
      | .subs _ => b'.cf = c'.cf
      | .fmul rd _ _ => b'.sf[rd] = c'.sf[rd]
      | .mmul _ _ _ => True)

/-- `20_memory.md` R61, `10_state.md` R22: a command changes what a bus read returns only at the n limb addresses of
its destination, at STATUS and at FLAGS. -/
def Obligations.CommandsLeaveOtherAddresses : Prop :=
  ∀ (p : Params) (b b' : Block p) (evs : List (Event p)) (r : Option (Reply p)) (i : Instr) (a : Nat),
    exec i ⟨p, b, evs, r⟩ = .next ⟨p, b', evs, r⟩ → a ≠ 5 → a ≠ 6 →
    (∀ k : Nat, k < b.n → k < p.nmax → a ≠ 8 + (destOf i).val * p.nmax + k) →
    ∀ (evs' : List (Event p)) (r₁ r₂ : Option (Reply p)), ∃ r' : Reply p,
      step ⟨p, b, .read a :: evs', r₁⟩ = .next ⟨p, b, evs', some r'⟩ ∧
      step ⟨p, b', .read a :: evs', r₂⟩ = .next ⟨p, b', evs', some r'⟩

/-- `10_state.md` section 1: a limb changes only by reset, by a bus write to its own address, or as a limb in use of
the destination of a command that is performed. -/
def Obligations.LimbWriters : Prop :=
  ∀ (p : Params) (b b' : Block p) (evs : List (Event p)) (r r' : Option (Reply p)) (e : Event p) (j : Buf)
    (i : Fin p.nmax),
    step ⟨p, b, e :: evs, r⟩ = .next ⟨p, b', evs, r'⟩ → b'.limb j i ≠ b.limb j i →
    (∃ fill, e = .reset fill) ∨ (∃ d, e = .write (8 + j.val * p.nmax + i.val) d) ∨
    ∃ d c, e = .write 4 d ∧ decode d = .ok c ∧ b.Ready ∧ b.OperandsValid c ∧ destOf c = j ∧ i.val < b.n

/-- `10_state.md` R23: a sign flag changes only by reset, by a write to FLAGS, or by LDS or FMUL with that
destination. -/
def Obligations.SignFlagWriters : Prop :=
  ∀ (p : Params) (b b' : Block p) (evs : List (Event p)) (r r' : Option (Reply p)) (e : Event p) (j : Buf),
    step ⟨p, b, e :: evs, r⟩ = .next ⟨p, b', evs, r'⟩ → b'.sf[j] ≠ b.sf[j] →
    (∃ fill, e = .reset fill) ∨ (∃ d, e = .write 6 d) ∨
    ∃ d c, e = .write 4 d ∧ decode d = .ok c ∧ b.Ready ∧ b.OperandsValid c ∧
      (c = .lds j ∨ ∃ ra rb, c = .fmul j ra rb)

/-- `10_state.md` R29: CF changes only by reset or by an ADDS or SUBS that is performed. -/
def Obligations.CarryFlagWriters : Prop :=
  ∀ (p : Params) (b b' : Block p) (evs : List (Event p)) (r r' : Option (Reply p)) (e : Event p),
    step ⟨p, b, e :: evs, r⟩ = .next ⟨p, b', evs, r'⟩ → b'.cf ≠ b.cf →
    (∃ fill, e = .reset fill) ∨
    ∃ d rd, e = .write 4 d ∧ b.Ready ∧ (decode d = .ok (.adds rd) ∨ decode d = .ok (.subs rd))

/-- `10_state.md` R26 and R27: KEXP changes only by reset or an accepted write to it, VAL only by reset or a write to
it. -/
def Obligations.KexpAndValWriters : Prop :=
  ∀ (p : Params) (b b' : Block p) (evs : List (Event p)) (r r' : Option (Reply p)) (e : Event p),
    step ⟨p, b, e :: evs, r⟩ = .next ⟨p, b', evs, r'⟩ →
    (b'.kexp ≠ b.kexp → (∃ fill, e = .reset fill) ∨
      ∃ d, e = .write 1 d ∧ 1 ≤ d.toNat ∧ d.toNat ≤ p.w * p.nmax ∧ b'.kexp = d) ∧
    (b'.val ≠ b.val → (∃ fill, e = .reset fill) ∨ ∃ d, e = .write 3 d ∧ b'.val = d)

/-! ## Reset and invariants -/

/-- `10_state.md` R39: what reset leaves, for every content the limbs may get, and what the registers then read. -/
def Obligations.ResetLeavesTheResetState : Prop :=
  ∀ (p : Params) (b : Block p) (evs : List (Event p)) (r : Option (Reply p)) (fill : Limbs p),
    ∃ (b' : Block p) (r' : Option (Reply p)), step ⟨p, b, .reset fill :: evs, r⟩ = .next ⟨p, b', evs, r'⟩ ∧
      b'.kexp.toNat = 0 ∧ b'.val.toNat = 0 ∧ b'.err = .none ∧ b'.cf = false ∧ (∀ j : Buf, b'.sf[j] = false) ∧
      b'.limbs = fill ∧
      ∀ (a : Nat) (v : Nat), (a, v) ∈ [(0, p.nmax), (2, 0), (4, 0), (5, 0), (6, 0)] →
        step ⟨p, b', .read a :: evs, r'⟩ =
          .next ⟨p, b', evs, some { rdata := some (BitVec.ofNat p.w v), err := false }⟩

/-- `10_state.md` R39: the registers of `State.reset`, and that its KEXP is legal. Its parameters and its limbs are the
model's choice (log 1, log 2) and nothing is said of them. -/
def Obligations.ResetStateIsLegal : Prop :=
  State.reset.Legal ∧ State.reset.block.kexp.toNat = 0 ∧ State.reset.block.val.toNat = 0 ∧
  State.reset.block.err = .none ∧ State.reset.block.cf = false ∧ ∀ j : Buf, State.reset.block.sf[j] = false

/-- `10_state.md` R41: every step keeps KEXP legal, from every state, and keeps the parameters. -/
def Obligations.StepKeepsKexpLegal : Prop :=
  ∀ s t : State, s.Legal → step s = .next t → t.Legal ∧ t.params = s.params

/-- `10_state.md` R41: KEXP holds 0 only from reset: once an exponent is configured, only reset removes it. -/
def Obligations.KexpZeroOnlyFromReset : Prop :=
  ∀ (p : Params) (b b' : Block p) (evs : List (Event p)) (r r' : Option (Reply p)) (e : Event p),
    b.kexp.toNat ≠ 0 → (∀ fill, e ≠ .reset fill) → step ⟨p, b, e :: evs, r⟩ = .next ⟨p, b', evs, r'⟩ →
    b'.kexp.toNat ≠ 0

/-! ## Host sequences -/

/-- `43_host_sequences.md` R162: the prologue, from any state: the error it reports, or a block with ERR = 0 and the
exponent configured and nothing else changed. -/
def Obligations.PrologueConfiguresTheExponent : Prop :=
  ∀ (p : Params) (b : Block p) (evs : List (Event p)) (r : Option (Reply p)) (k : Nat), k < 2 ^ p.w →
    (k = 0 → prologue k ⟨p, b, evs, r⟩ = .error .invalidExponent) ∧
    (p.w * p.nmax < k → prologue k ⟨p, b, evs, r⟩ = .error .allocationFailure) ∧
    (1 ≤ k → k ≤ p.w * p.nmax → ∃ r' : Option (Reply p), prologue k ⟨p, b, evs, r⟩ =
      .ok ⟨p, { b with err := .none, kexp := BitVec.ofNat p.w k }, evs, r'⟩)

/-- `43_host_sequences.md` R163: `MSUBV(Bb, v)` replaces a valid Mersenne residue x <= M-1 by (x - v) mod M, aligned K
or not, and touches no other limb in use, no flag and no error. -/
def Obligations.MsubvSubtractsModulo : Prop :=
  ∀ (p : Params) (b : Block p) (evs : List (Event p)) (r : Option (Reply p)) (j : Buf) (v : Nat),
    b.Ready → b.Legal → 2 ≤ b.k → b.stored j < 2 ^ b.k - 1 → v ≤ 2 ^ b.k - 1 → v < 2 ^ p.w →
    ∃ (b' : Block p) (r' : Option (Reply p)), msubv b.k j v ⟨p, b, evs, r⟩ = ⟨p, b', evs, r'⟩ ∧
      (b'.stored j : Int) = ((b.stored j : Int) - v) % (2 ^ b.k - 1) ∧
      b.LimbsKeptBut b' j ∧ b'.sf = b.sf ∧ b'.kexp = b.kexp ∧ b'.err = .none

/-- `43_host_sequences.md` R169: with bound floor(sqrt(x)), TrialDivision is an exact primality test. -/
def Obligations.TrialDivisionIsExact : Prop := ∀ x : Nat, trialDivision x (floorSqrt x) = true ↔ Nat.Prime x

/-- `43_host_sequences.md` R173 for the Fermat family: from any state the sequence reads back the product modulo 2^k+1 of
any two true values in [0, 2^k], so the comparison says true, and no error is left. -/
def Obligations.CrossCheckFermatAgrees : Prop :=
  ∀ (p : Params) (b : Block p) (evs : List (Event p)) (r : Option (Reply p)) (k x y : Nat),
    1 ≤ k → k ≤ p.w * p.nmax → x ≤ 2 ^ k → y ≤ 2 ^ k →
    ∃ (b' : Block p) (r' : Option (Reply p)),
      fermatOnBlock k x y ⟨p, b, evs, r⟩ = .ok (x * y % (2 ^ k + 1), ⟨p, b', evs, r'⟩) ∧
      crossCheckFermat k x y ⟨p, b, evs, r⟩ = .ok (true, ⟨p, b', evs, r'⟩) ∧ b'.err = .none

/-- `43_host_sequences.md` R173 for the Mersenne family: from any state the sequence reads back the product modulo 2^k-1
of any two values in [0, 2^k-1], so the comparison says true, and no error is left. -/
def Obligations.CrossCheckMersenneAgrees : Prop :=
  ∀ (p : Params) (b : Block p) (evs : List (Event p)) (r : Option (Reply p)) (k x y : Nat),
    1 ≤ k → k ≤ p.w * p.nmax → x ≤ 2 ^ k - 1 → y ≤ 2 ^ k - 1 →
    ∃ (b' : Block p) (r' : Option (Reply p)),
      mersenneOnBlock k x y ⟨p, b, evs, r⟩ = .ok (x * y % (2 ^ k - 1), ⟨p, b', evs, r'⟩) ∧
      crossCheckMersenne k x y ⟨p, b, evs, r⟩ = .ok (true, ⟨p, b', evs, r'⟩) ∧ b'.err = .none
end

