-- ==== Sys2Proof/Laws/Config.lean ====
section
/-! SUPPORT. What the parameter constraints give. -/

namespace Sys2Proof

theorem Params.w_pos (p : Params) : 0 < p.w := Nat.lt_of_lt_of_le (by decide) p.w_ge

/-- NMAX is below 2^W, so CAP and NLIMB read exactly. -/
theorem Params.nmax_lt (p : Params) : p.nmax < 2 ^ p.w :=
  Nat.lt_of_le_of_lt (Nat.le_mul_of_pos_left p.nmax p.w_pos) p.cap_fits

/-- Every 16-bit command word fits a data word. -/
theorem Params.two_pow_16_le (p : Params) : 2 ^ 16 ≤ 2 ^ p.w := Nat.pow_le_pow_right (by decide) p.w_ge

end Sys2Proof
end

