-- ==== Sys2Proof/Laws/State.lean ====
section
/-! SUPPORT. One lemma per field and update of State and of the reset block, so that no proof unfolds a record
update. -/

namespace Sys2Proof.Machine

variable {p : Params}

@[simp] theorem State.withBlock_params (s : State) (b : Block s.params) : (s.withBlock b).params = s.params := rfl
@[simp] theorem State.withBlock_block (s : State) (b : Block s.params) : (s.withBlock b).block = b := rfl
@[simp] theorem State.withBlock_pending (s : State) (b : Block s.params) : (s.withBlock b).pending = s.pending := rfl
@[simp] theorem State.withBlock_reply (s : State) (b : Block s.params) : (s.withBlock b).reply = s.reply := rfl
@[simp] theorem State.withBlock_self (s : State) : s.withBlock s.block = s := rfl

@[simp] theorem State.withReply_params (s : State) (r : Reply s.params) : (s.withReply r).params = s.params := rfl
@[simp] theorem State.withReply_block (s : State) (r : Reply s.params) : (s.withReply r).block = s.block := rfl
@[simp] theorem State.withReply_pending (s : State) (r : Reply s.params) : (s.withReply r).pending = s.pending := rfl
@[simp] theorem State.withReply_reply (s : State) (r : Reply s.params) : (s.withReply r).reply = some r := rfl

@[simp] theorem State.withBlock_mk (b b' : Block p) (evs : List (Event p)) (r : Option (Reply p)) :
    State.withBlock ⟨p, b, evs, r⟩ b' = ⟨p, b', evs, r⟩ := rfl
@[simp] theorem State.withReply_mk (b : Block p) (evs : List (Event p)) (r : Option (Reply p)) (r' : Reply p) :
    State.withReply ⟨p, b, evs, r⟩ r' = ⟨p, b, evs, some r'⟩ := rfl

@[simp] theorem Block.afterReset_limbs (fill : Limbs p) : (Block.afterReset fill).limbs = fill := rfl
@[simp] theorem Block.afterReset_kexp (fill : Limbs p) : (Block.afterReset fill).kexp = 0#p.w := rfl
@[simp] theorem Block.afterReset_val (fill : Limbs p) : (Block.afterReset fill).val = 0#p.w := rfl
@[simp] theorem Block.afterReset_err (fill : Limbs p) : (Block.afterReset fill).err = .none := rfl
@[simp] theorem Block.afterReset_cf (fill : Limbs p) : (Block.afterReset fill).cf = false := rfl
@[simp] theorem Block.afterReset_sf (fill : Limbs p) (j : Buf) : (Block.afterReset fill).sf[j] = false := by
  simp [Block.afterReset]

end Sys2Proof.Machine
end

