-- ==== Sys2Proof/Laws/Ops.lean ====
section
/-! SUPPORT. What the operations of Machine/Ops.lean can do, said once each. -/

namespace Sys2Proof.Machine

variable {p : Params}

/-! ## Derived constants -/

/-- n is the least number of limbs that holds K bits (`00_scope.md` R9). -/
theorem limbCount_le_iff {w : Nat} (hw : 0 < w) (k m : Nat) : limbCount w k ≤ m ↔ k ≤ w * m := by
  unfold limbCount
  rw [Nat.div_le_iff_le_mul_add_pred hw]
  omega

theorem limbCount_zero {w : Nat} (hw : 0 < w) : limbCount w 0 = 0 :=
  Nat.le_zero.mp ((limbCount_le_iff hw 0 0).mpr (Nat.zero_le _))

theorem limbCount_pos {w k : Nat} (hw : 0 < w) (hk : k ≠ 0) : 0 < limbCount w k := by
  rcases Nat.eq_zero_or_pos (limbCount w k) with h | h
  · exact absurd (Nat.le_zero.mp ((limbCount_le_iff hw k 0).mp (Nat.le_of_eq h))) hk
  · exact h

/-- K bits fit the limbs in use. -/
theorem Block.k_le (b : Block p) : b.k ≤ p.w * b.n := (limbCount_le_iff p.w_pos b.k b.n).mp (Nat.le_refl _)

/-- A legal exponent uses no more limbs than a buffer has. -/
theorem Block.n_le (b : Block p) (h : b.k ≤ kmax p) : b.n ≤ p.nmax := (limbCount_le_iff p.w_pos b.k p.nmax).mpr h

theorem Block.n_pos (b : Block p) (h : b.k ≠ 0) : 0 < b.n := limbCount_pos p.w_pos h

/-- 2^K divides the boundary 2^(W*n) of the carry primitives (`40_limb_carry.md` R110). -/
theorem Block.two_pow_k_dvd (b : Block p) : 2 ^ b.k ∣ 2 ^ (p.w * b.n) := Nat.pow_dvd_pow 2 b.k_le

/-! ## Limbs and flags -/

@[simp] theorem Block.limb_setLimb_self (b : Block p) (j : Buf) (i : Fin p.nmax) (v : Word p.w) :
    (b.setLimb j i v).limb j i = v := by simp [Block.limb, Block.setLimb]

theorem Block.limb_setLimb_ne (b : Block p) {j j' : Buf} {i i' : Fin p.nmax} (v : Word p.w)
    (h : (j', i') ≠ (j, i)) : (b.setLimb j i v).limb j' i' = b.limb j' i' := by
  simp only [Block.limb, Block.setLimb, Fin.getElem_fin, Vector.getElem_set]
  split
  · rename_i hj
    have hj : j = j' := Fin.ext hj
    subst hj
    have hi : (i : Nat) ≠ i' := fun hi => h (by rw [Fin.ext hi])
    simp [hi]
  · rfl

@[simp] theorem Block.setLimb_sf (b : Block p) (j : Buf) (i : Fin p.nmax) (v : Word p.w) :
    (b.setLimb j i v).sf = b.sf := rfl
@[simp] theorem Block.setLimb_kexp (b : Block p) (j : Buf) (i : Fin p.nmax) (v : Word p.w) :
    (b.setLimb j i v).kexp = b.kexp := rfl
@[simp] theorem Block.setLimb_val (b : Block p) (j : Buf) (i : Fin p.nmax) (v : Word p.w) :
    (b.setLimb j i v).val = b.val := rfl
@[simp] theorem Block.setLimb_err (b : Block p) (j : Buf) (i : Fin p.nmax) (v : Word p.w) :
    (b.setLimb j i v).err = b.err := rfl
@[simp] theorem Block.setLimb_cf (b : Block p) (j : Buf) (i : Fin p.nmax) (v : Word p.w) :
    (b.setLimb j i v).cf = b.cf := rfl

@[simp] theorem Block.setFlag_limbs (b : Block p) (j : Buf) (f : Bool) : (b.setFlag j f).limbs = b.limbs := rfl
@[simp] theorem Block.setFlag_kexp (b : Block p) (j : Buf) (f : Bool) : (b.setFlag j f).kexp = b.kexp := rfl
@[simp] theorem Block.setFlag_val (b : Block p) (j : Buf) (f : Bool) : (b.setFlag j f).val = b.val := rfl
@[simp] theorem Block.setFlag_err (b : Block p) (j : Buf) (f : Bool) : (b.setFlag j f).err = b.err := rfl
@[simp] theorem Block.setFlag_cf (b : Block p) (j : Buf) (f : Bool) : (b.setFlag j f).cf = b.cf := rfl
@[simp] theorem Block.setFlag_k (b : Block p) (j : Buf) (f : Bool) : (b.setFlag j f).k = b.k := rfl
@[simp] theorem Block.setFlag_n (b : Block p) (j : Buf) (f : Bool) : (b.setFlag j f).n = b.n := rfl

@[simp] theorem Block.setFlag_sf_self (b : Block p) (j : Buf) (f : Bool) : (b.setFlag j f).sf[j] = f := by
  simp [Block.setFlag]

theorem Block.setFlag_sf_ne (b : Block p) {j j' : Buf} (f : Bool) (h : j' ≠ j) :
    (b.setFlag j f).sf[j'] = b.sf[j'] := by
  have h : (j : Nat) ≠ j' := fun e => h (Fin.ext e).symm
  simp [Block.setFlag, h]

/-! ## The error mechanism -/

/-- Everything raising an error can do: ERR takes the code when it was 0, nothing else changes (`60_exceptions.md`
R196). -/
theorem Block.raise_eq (b : Block p) (c : ErrCode) :
    b.raise c = { b with err := if b.err = .none then c else b.err } := by
  unfold Block.raise
  split <;> rfl

@[simp] theorem Block.raise_limbs (b : Block p) (c : ErrCode) : (b.raise c).limbs = b.limbs := by rw [b.raise_eq]
@[simp] theorem Block.raise_sf (b : Block p) (c : ErrCode) : (b.raise c).sf = b.sf := by rw [b.raise_eq]
@[simp] theorem Block.raise_kexp (b : Block p) (c : ErrCode) : (b.raise c).kexp = b.kexp := by rw [b.raise_eq]
@[simp] theorem Block.raise_val (b : Block p) (c : ErrCode) : (b.raise c).val = b.val := by rw [b.raise_eq]
@[simp] theorem Block.raise_cf (b : Block p) (c : ErrCode) : (b.raise c).cf = b.cf := by rw [b.raise_eq]

theorem Block.raise_of_none (b : Block p) (c : ErrCode) (h : b.err = .none) : b.raise c = { b with err := c } := by
  rw [b.raise_eq, if_pos h]

theorem Block.raise_of_err (b : Block p) (c : ErrCode) (h : b.err ≠ .none) : b.raise c = b := by
  rw [b.raise_eq, if_neg h]

/-- Everything the gate can do with a decoded command (`60_exceptions.md` R197, lines 1, 3, 4, 5). -/
theorem Block.gated_cases (b : Block p) (valid : Bool) (performed : Block p) :
    (b.err ≠ .none ∧ b.gated valid performed = b) ∨
    (b.err = .none ∧ b.k = 0 ∧ b.gated valid performed = { b with err := .invexp }) ∨
    (b.err = .none ∧ b.k ≠ 0 ∧ valid = false ∧ b.gated valid performed = { b with err := .range }) ∨
    (b.err = .none ∧ b.k ≠ 0 ∧ valid = true ∧ b.gated valid performed = performed) := by
  by_cases he : b.err = .none <;> by_cases hk : b.k = 0 <;> cases valid <;>
    simp [Block.gated, he, hk, Block.raise_of_none]

/-- The gate lets a command through exactly to its effect. -/
theorem Block.gated_performed (b : Block p) {valid : Bool} (performed : Block p) (he : b.err = .none) (hk : b.k ≠ 0)
    (hv : valid = true) : b.gated valid performed = performed := by
  simp [Block.gated, he, hk, hv]

/-- Everything the checked write of KEXP can do (`10_state.md` R26). -/
theorem Block.writeKexp_cases (b : Block p) (d : Word p.w) :
    (d.toNat = 0 ∧ b.writeKexp d = b.raise .invexp) ∨
    (kmax p < d.toNat ∧ b.writeKexp d = b.raise .alloc) ∨
    (d.toNat ≠ 0 ∧ d.toNat ≤ kmax p ∧ b.writeKexp d = { b with kexp := d }) := by
  unfold Block.writeKexp
  by_cases h0 : d.toNat = 0
  · exact .inl ⟨h0, if_pos h0⟩
  · by_cases h1 : kmax p < d.toNat
    · exact .inr (.inl ⟨h1, by rw [if_neg h0, if_pos h1]⟩)
    · exact .inr (.inr ⟨h0, Nat.le_of_not_lt h1, by rw [if_neg h0, if_neg h1]⟩)

/-- Everything a write to STATUS can do (`10_state.md` R30). -/
theorem Block.writeStatus_eq (b : Block p) (d : Word p.w) :
    b.writeStatus d = { b with err := if d.toNat % 2 = 1 then .none else b.err } := by
  unfold Block.writeStatus
  split <;> rfl

/-! ## The address map -/

theorem limb_index_lt (p : Params) (j : Buf) (i : Fin p.nmax) : j.val * p.nmax + i.val < 4 * p.nmax := by
  have h : j.val * p.nmax ≤ 3 * p.nmax := Nat.mul_le_mul_right _ (by omega)
  have hi := i.isLt
  omega

theorem limbTarget_limb (p : Params) (j : Buf) (i : Fin p.nmax) :
    limbTarget p (j.val * p.nmax + i.val) = some (.limb j i) := by
  have hd : (j.val * p.nmax + i.val) / p.nmax = j.val := by
    rw [Nat.add_comm, Nat.add_mul_div_right _ _ p.nmax_pos, Nat.div_eq_of_lt i.isLt, Nat.zero_add]
  have hm : (j.val * p.nmax + i.val) % p.nmax = i.val := by
    rw [Nat.add_comm, Nat.add_mul_mod_self_right, Nat.mod_eq_of_lt i.isLt]
  simp only [limbTarget, dif_pos (limb_index_lt p j i), hd, hm]

/-- The map and the addresses agree (`20_memory.md` R52, R54). -/
theorem target_addr (t : Target p) : target p t.addr = some t := by
  cases t with
  | limb j i =>
    rw [show (Target.limb j i : Target p).addr = (j.val * p.nmax + i.val) + 8 by simp only [Target.addr]; omega]
    exact limbTarget_limb p j i
  | _ => rfl

/-- The limb window (`20_memory.md` R54). -/
theorem target_limb (p : Params) (j : Buf) (i : Fin p.nmax) :
    target p (8 + j.val * p.nmax + i.val) = some (.limb j i) := target_addr (.limb j i)

theorem limbTarget_none {p : Params} {a : Nat} (h : 4 * p.nmax ≤ a) : limbTarget p a = none :=
  dif_neg (Nat.not_lt.mpr h)

/-- Address 7 and the addresses from 8 + 4*NMAX on name nothing (`20_memory.md` R52, R58). -/
theorem target_none {p : Params} {a : Nat} (h : a = 7 ∨ 8 + 4 * p.nmax ≤ a) : target p a = none := by
  rcases h with rfl | h
  · rfl
  · obtain ⟨m, rfl⟩ : ∃ m, a = m + 8 := ⟨a - 8, by omega⟩
    exact limbTarget_none (by omega)

theorem limbTarget_some {p : Params} {a : Nat} {t : Target p} (h : limbTarget p a = some t) :
    ∃ j i, t = .limb j i ∧ a = j.val * p.nmax + i.val := by
  unfold limbTarget at h
  split at h
  · cases h
    exact ⟨_, _, rfl, (Nat.div_add_mod' a p.nmax).symm⟩
  · cases h

/-- An address that names a target is the target's address. -/
theorem addr_of_target {p : Params} {a : Nat} {t : Target p} (h : target p a = some t) : a = t.addr := by
  unfold target at h
  split at h
  case h_9 a =>
    obtain ⟨j, i, rfl, rfl⟩ := limbTarget_some h
    simp only [Target.addr]; omega
  all_goals cases h <;> rfl

/-- An address that names nothing is 7 or at least 8 + 4*NMAX. -/
theorem target_eq_none {p : Params} {a : Nat} (h : target p a = none) : a = 7 ∨ 8 + 4 * p.nmax ≤ a := by
  unfold target at h
  split at h
  case h_8 => exact .inl rfl
  case h_9 a =>
    refine .inr (Nat.le_of_not_lt fun hl => ?_)
    simp [limbTarget, show a < 4 * p.nmax by omega] at h
  all_goals cases h

end Sys2Proof.Machine
end

