-- ==== Sys2Proof/Laws/Operands.lean ====
section
/-! SUPPORT. What the operand forms can do: the value of limbs, reading after a store, and what a store leaves
alone. -/

namespace Sys2Proof.Machine

variable {p : Params}

/-! ## The value of limbs (10_state.md R21) -/

@[simp] theorem limbsValue_nil {w : Nat} : limbsValue ([] : List (Word w)) = 0 := rfl
@[simp] theorem limbsValue_cons {w : Nat} (l : Word w) (ls : List (Word w)) :
    limbsValue (l :: ls) = l.toNat + 2 ^ w * limbsValue ls := rfl

/-- The invariant of `10_state.md` R21: 0 <= value < 2^(W*n). -/
theorem limbsValue_lt {w : Nat} (ls : List (Word w)) : limbsValue ls < 2 ^ (w * ls.length) := by
  induction ls with
  | nil => simp
  | cons l ls ih =>
    have hl := l.isLt
    have : 2 ^ w * (limbsValue ls + 1) ≤ 2 ^ w * 2 ^ (w * ls.length) := Nat.mul_le_mul_left _ ih
    rw [List.length_cons, Nat.mul_succ, Nat.pow_add, Nat.mul_comm (2 ^ (w * ls.length))]
    simp only [limbsValue_cons, Nat.mul_add] at this ⊢
    omega

/-- Limbs of one length spell different integers unless they are equal. -/
theorem limbsValue_inj {w : Nat} {xs ys : List (Word w)} (hl : xs.length = ys.length)
    (hv : limbsValue xs = limbsValue ys) : xs = ys := by
  induction xs generalizing ys with
  | nil => exact (List.length_eq_zero_iff.mp hl.symm).symm
  | cons x xs ih =>
    cases ys with
    | nil => cases hl
    | cons y ys =>
      simp only [limbsValue_cons] at hv
      have hx : x.toNat = y.toNat := by
        have := congrArg (· % 2 ^ w) hv
        simpa [Nat.add_mul_mod_self_left, Nat.mod_eq_of_lt x.isLt, Nat.mod_eq_of_lt y.isLt] using this
      have hr : limbsValue xs = limbsValue ys := by
        rw [hx] at hv
        exact Nat.eq_of_mul_eq_mul_left (Nat.two_pow_pos w) (Nat.add_left_cancel hv)
      rw [BitVec.eq_of_toNat_eq hx, ih (Nat.succ.inj hl) hr]

theorem limbsValue_append {w : Nat} (xs ys : List (Word w)) :
    limbsValue (xs ++ ys) = limbsValue xs + 2 ^ (w * xs.length) * limbsValue ys := by
  induction xs with
  | nil => simp
  | cons x xs ih =>
    rw [List.cons_append, limbsValue_cons, ih, limbsValue_cons, List.length_cons, Nat.mul_succ, Nat.pow_add]
    ring

/-- The limbs of v, cut W bits at a time, spell v modulo 2^(W*m). -/
theorem limbsValue_digits (w v m : Nat) :
    limbsValue ((List.range m).map fun i => BitVec.ofNat w (v / 2 ^ (w * i))) = v % 2 ^ (w * m) := by
  induction m with
  | zero => simp [Nat.mod_one]
  | succ m ih =>
    rw [List.range_succ, List.map_append, limbsValue_append, ih]
    simp only [List.length_map, List.length_range, List.map_cons, List.map_nil, limbsValue_cons, limbsValue_nil,
      BitVec.toNat_ofNat, Nat.mul_zero, Nat.add_zero]
    rw [Nat.mul_succ, Nat.pow_add, Nat.mod_mul]

/-! ## Stored values -/

theorem Block.inUse_length (b : Block p) (j : Buf) (h : b.n ≤ p.nmax) : (b.inUse j).length = b.n := by
  simp [Block.inUse, h]

/-- A stored value is below the boundary 2^(W*n) (`10_state.md` R21). -/
theorem Block.stored_lt (b : Block p) (j : Buf) : b.stored j < b.boundary := by
  have hlen : (b.inUse j).length ≤ b.n := by simp [Block.inUse]
  exact Nat.lt_of_lt_of_le (limbsValue_lt _) (Nat.pow_le_pow_right (by decide) (Nat.mul_le_mul_left _ hlen))

theorem Block.boundary_pos (b : Block p) : 0 < b.boundary := Nat.two_pow_pos _

/-- 2^K is at most the boundary. -/
theorem Block.two_pow_k_le (b : Block p) : 2 ^ b.k ≤ b.boundary := Nat.pow_le_pow_right (by decide) b.k_le

/-- With an exponent configured, VAL is below the boundary. -/
theorem Block.val_lt_boundary (b : Block p) (h : b.k ≠ 0) : b.val.toNat < b.boundary :=
  Nat.lt_of_lt_of_le b.val.isLt
    (Nat.pow_le_pow_right (by decide) (Nat.le_mul_of_pos_right _ (b.n_pos h)))

/-! ## Storing (00_scope.md section 6) -/

@[simp] theorem Block.store_sf (b : Block p) (j : Buf) (v : Nat) : (b.store j v).sf = b.sf := rfl
@[simp] theorem Block.store_kexp (b : Block p) (j : Buf) (v : Nat) : (b.store j v).kexp = b.kexp := rfl
@[simp] theorem Block.store_val (b : Block p) (j : Buf) (v : Nat) : (b.store j v).val = b.val := rfl
@[simp] theorem Block.store_err (b : Block p) (j : Buf) (v : Nat) : (b.store j v).err = b.err := rfl
@[simp] theorem Block.store_cf (b : Block p) (j : Buf) (v : Nat) : (b.store j v).cf = b.cf := rfl
@[simp] theorem Block.store_k (b : Block p) (j : Buf) (v : Nat) : (b.store j v).k = b.k := rfl
@[simp] theorem Block.store_n (b : Block p) (j : Buf) (v : Nat) : (b.store j v).n = b.n := rfl

/-- A limb of the buffer stored to. -/
theorem Block.store_limb_self (b : Block p) (j : Buf) (v : Nat) (i : Fin p.nmax) :
    (b.store j v).limb j i = writtenLimb p.w b.n v i (b.limb j i) := by
  simp [Block.limb, Block.store]

/-- Limbs not in use are not written (`10_state.md` R22). -/
theorem Block.store_limb_not_in_use (b : Block p) (j : Buf) (v : Nat) (i : Fin p.nmax) (h : b.n ≤ i.val) :
    (b.store j v).limb j i = b.limb j i := by
  rw [b.store_limb_self, writtenLimb, if_neg (Nat.not_lt.mpr h)]

/-- The other buffers are not written. -/
theorem Block.store_limbs_ne (b : Block p) {j j' : Buf} (v : Nat) (h : j' ≠ j) :
    (b.store j v).limbs[j'] = b.limbs[j'] := by
  have h : (j : Nat) ≠ j' := fun e => h (Fin.ext e).symm
  simp [Block.store, h]

/-- The limbs in use after a store are the limbs of the integer stored. -/
theorem Block.store_inUse (b : Block p) (j : Buf) (v : Nat) (h : b.n ≤ p.nmax) :
    (b.store j v).inUse j = (List.range b.n).map fun i => BitVec.ofNat p.w (v / 2 ^ (p.w * i)) := by
  apply List.ext_getElem
  · simp [Block.inUse, h]
  · intro i h₁ h₂
    have hi : i < b.n := by simpa using h₂
    simp [Block.inUse, Block.store, writtenLimb, hi]

theorem Block.store_inUse_ne (b : Block p) {j j' : Buf} (v : Nat) (h : j' ≠ j) :
    (b.store j v).inUse j' = b.inUse j' := by
  simp only [Block.inUse, Block.store_n, b.store_limbs_ne v h]

/-- Reading back a store: the integer modulo 2^(W*n). -/
theorem Block.stored_store (b : Block p) (j : Buf) (v : Nat) (h : b.n ≤ p.nmax) :
    (b.store j v).stored j = v % b.boundary := by
  rw [Block.stored, b.store_inUse j v h, limbsValue_digits, Block.boundary]

theorem Block.stored_store_ne (b : Block p) {j j' : Buf} (v : Nat) (h : j' ≠ j) :
    (b.store j v).stored j' = b.stored j' := by
  simp only [Block.stored, b.store_inUse_ne v h]

@[simp] theorem Block.setFlag_inUse (b : Block p) (j : Buf) (f : Bool) (j' : Buf) :
    (b.setFlag j f).inUse j' = b.inUse j' := rfl
@[simp] theorem Block.setFlag_stored (b : Block p) (j : Buf) (f : Bool) (j' : Buf) :
    (b.setFlag j f).stored j' = b.stored j' := rfl
@[simp] theorem Block.setFlag_limb (b : Block p) (j : Buf) (f : Bool) (j' : Buf) (i : Fin p.nmax) :
    (b.setFlag j f).limb j' i = b.limb j' i := rfl

/-! ## Residues (10_state.md R23, R24) -/

theorem Block.validFermat_iff (b : Block p) (j : Buf) :
    b.validFermat j = true ↔ b.stored j < 2 ^ b.k ∧ (b.sf[j] = true → b.stored j = 0) := by
  cases hs : b.sf[j] <;> simp [Block.validFermat, hs]

theorem Block.validMersenne_iff (b : Block p) (j : Buf) : b.validMersenne j = true ↔ b.stored j < 2 ^ b.k := by
  simp [Block.validMersenne]

/-- The true value of a valid Fermat residue lies in [0, 2^K] (`10_state.md` R24). -/
theorem Block.trueValue_le (b : Block p) (j : Buf) (h : b.validFermat j = true) : b.trueValue j ≤ 2 ^ b.k := by
  obtain ⟨hlt, hz⟩ := (b.validFermat_iff j).mp h
  cases hs : b.sf[j]
  · rw [Block.trueValue, hs]; simp only [Bool.toNat_false]; omega
  · rw [Block.trueValue, hs, hz hs]; simp

end Sys2Proof.Machine
end

