-- ==== Sys2Proof/Laws/Commands.lean ====
section
/-! SUPPORT. What the commands can do: every command answers a next state whose block is the gate's, and writes
through `store` and `setFlag` only. -/

namespace Sys2Proof.Machine

variable {p : Params}

/-! ## The meanings as gated effects (60_exceptions.md R197) -/

theorem exec_lds (rd : Buf) (b : Block p) (evs : List (Event p)) (r : Option (Reply p)) :
    exec (.lds rd) ⟨p, b, evs, r⟩ = .next ⟨p, b.gated true (b.loadSmall rd), evs, r⟩ := rfl

theorem exec_adds (rd : Buf) (b : Block p) (evs : List (Event p)) (r : Option (Reply p)) :
    exec (.adds rd) ⟨p, b, evs, r⟩ = .next ⟨p, b.gated true (b.addSmall rd), evs, r⟩ := rfl

theorem exec_subs (rd : Buf) (b : Block p) (evs : List (Event p)) (r : Option (Reply p)) :
    exec (.subs rd) ⟨p, b, evs, r⟩ = .next ⟨p, b.gated true (b.subSmall rd), evs, r⟩ := rfl

theorem exec_fmul (rd ra rb : Buf) (b : Block p) (evs : List (Event p)) (r : Option (Reply p)) :
    exec (.fmul rd ra rb) ⟨p, b, evs, r⟩ =
      .next ⟨p, b.gated (b.validFermat ra && b.validFermat rb) (b.fermatMul rd ra rb), evs, r⟩ := rfl

theorem exec_mmul (rd ra rb : Buf) (b : Block p) (evs : List (Event p)) (r : Option (Reply p)) :
    exec (.mmul rd ra rb) ⟨p, b, evs, r⟩ =
      .next ⟨p, b.gated (b.validMersenne ra && b.validMersenne rb) (b.mersenneMul rd ra rb), evs, r⟩ := rfl

/-- Every command answers a next state that differs in the block only, and what becomes of the block does not depend
on what is pending or was answered before. -/
theorem exec_next (i : Instr) (b : Block p) :
    ∃ b' : Block p, ∀ evs r, exec i ⟨p, b, evs, r⟩ = .next ⟨p, b', evs, r⟩ := by
  cases i with
  | lds rd => exact ⟨_, exec_lds rd b⟩
  | adds rd => exact ⟨_, exec_adds rd b⟩
  | subs rd => exact ⟨_, exec_subs rd b⟩
  | fmul rd ra rb => exact ⟨_, exec_fmul rd ra rb b⟩
  | mmul rd ra rb => exact ⟨_, exec_mmul rd ra rb b⟩

/-! ## The effects -/

/-- Everything writing a Fermat result can do to the destination (`41_fermat_modmul.md` R121): it becomes a valid
residue with true value z, flagged exactly when z = 2^K. -/
theorem Block.storeFermat_result (b : Block p) (rd : Buf) {z : Nat} (hn : b.n ≤ p.nmax) (hz : z ≤ 2 ^ b.k) :
    (b.storeFermat rd z).trueValue rd = z ∧ (b.storeFermat rd z).validFermat rd = true ∧
    (b.storeFermat rd z).sf[rd] = decide (z = 2 ^ b.k) ∧
    (b.storeFermat rd z).stored rd = if z = 2 ^ b.k then 0 else z := by
  have hb := b.two_pow_k_le
  by_cases h : z = 2 ^ b.k
  · have hs : ((b.store rd 0).setFlag rd true).stored rd = 0 := by
      rw [Block.setFlag_stored, b.stored_store rd 0 hn, Nat.zero_mod]
    simp only [Block.storeFermat, if_pos h, Block.validFermat_iff, Block.trueValue, hs, Block.setFlag_sf_self,
      Block.setFlag_k, Block.store_k]
    simp [h]
  · have hlt : z < 2 ^ b.k := Nat.lt_of_le_of_ne hz h
    have hs : ((b.store rd z).setFlag rd false).stored rd = z := by
      rw [Block.setFlag_stored, b.stored_store rd z hn, Nat.mod_eq_of_lt (Nat.lt_of_lt_of_le hlt hb)]
    simp only [Block.storeFermat, if_neg h, Block.validFermat_iff, Block.trueValue, hs, Block.setFlag_sf_self,
      Block.setFlag_k, Block.store_k]
    simp [h, hlt]

/-- What writing a Fermat result leaves alone. -/
theorem Block.storeFermat_frame (b : Block p) (rd : Buf) (z : Nat) :
    (∀ j : Buf, j ≠ rd → (b.storeFermat rd z).limbs[j] = b.limbs[j]) ∧
    (∀ i : Fin p.nmax, b.n ≤ i.val → (b.storeFermat rd z).limb rd i = b.limb rd i) ∧
    (∀ j : Buf, j ≠ rd → (b.storeFermat rd z).sf[j] = b.sf[j]) ∧
    (b.storeFermat rd z).kexp = b.kexp ∧ (b.storeFermat rd z).val = b.val ∧
    (b.storeFermat rd z).err = b.err ∧ (b.storeFermat rd z).cf = b.cf := by
  unfold Block.storeFermat
  split
  all_goals
    refine ⟨fun j hj => ?_, fun i hi => ?_, fun j hj => ?_, rfl, rfl, rfl, rfl⟩
    · simpa using b.store_limbs_ne _ hj
    · simpa using b.store_limb_not_in_use rd _ i hi
    · rw [Block.setFlag_sf_ne _ _ hj, Block.store_sf]

@[simp] theorem Block.addSmall_sf (b : Block p) (rd : Buf) : (b.addSmall rd).sf = b.sf := rfl
@[simp] theorem Block.addSmall_kexp (b : Block p) (rd : Buf) : (b.addSmall rd).kexp = b.kexp := rfl
@[simp] theorem Block.addSmall_val (b : Block p) (rd : Buf) : (b.addSmall rd).val = b.val := rfl
@[simp] theorem Block.addSmall_err (b : Block p) (rd : Buf) : (b.addSmall rd).err = b.err := rfl
@[simp] theorem Block.addSmall_cf (b : Block p) (rd : Buf) :
    (b.addSmall rd).cf = b.carryOut (b.stored rd + b.val.toNat) := rfl
@[simp] theorem Block.addSmall_limbs (b : Block p) (rd : Buf) :
    (b.addSmall rd).limbs = (b.store rd ((b.stored rd + b.val.toNat) % b.boundary)).limbs := rfl

@[simp] theorem Block.subSmall_sf (b : Block p) (rd : Buf) : (b.subSmall rd).sf = b.sf := rfl
@[simp] theorem Block.subSmall_kexp (b : Block p) (rd : Buf) : (b.subSmall rd).kexp = b.kexp := rfl
@[simp] theorem Block.subSmall_val (b : Block p) (rd : Buf) : (b.subSmall rd).val = b.val := rfl
@[simp] theorem Block.subSmall_err (b : Block p) (rd : Buf) : (b.subSmall rd).err = b.err := rfl
@[simp] theorem Block.subSmall_cf (b : Block p) (rd : Buf) :
    (b.subSmall rd).cf = borrowOut ((b.stored rd : Int) - b.val.toNat) := rfl
@[simp] theorem Block.subSmall_limbs (b : Block p) (rd : Buf) :
    (b.subSmall rd).limbs =
      (b.store rd (((b.stored rd : Int) - b.val.toNat) % (b.boundary : Int)).toNat).limbs := rfl

@[simp] theorem Block.loadSmall_kexp (b : Block p) (rd : Buf) : (b.loadSmall rd).kexp = b.kexp := rfl
@[simp] theorem Block.loadSmall_val (b : Block p) (rd : Buf) : (b.loadSmall rd).val = b.val := rfl
@[simp] theorem Block.loadSmall_err (b : Block p) (rd : Buf) : (b.loadSmall rd).err = b.err := rfl
@[simp] theorem Block.loadSmall_cf (b : Block p) (rd : Buf) : (b.loadSmall rd).cf = b.cf := rfl

@[simp] theorem Block.mersenneMul_sf (b : Block p) (rd ra rb : Buf) : (b.mersenneMul rd ra rb).sf = b.sf := rfl
@[simp] theorem Block.mersenneMul_kexp (b : Block p) (rd ra rb : Buf) :
    (b.mersenneMul rd ra rb).kexp = b.kexp := rfl
@[simp] theorem Block.mersenneMul_val (b : Block p) (rd ra rb : Buf) : (b.mersenneMul rd ra rb).val = b.val := rfl
@[simp] theorem Block.mersenneMul_err (b : Block p) (rd ra rb : Buf) : (b.mersenneMul rd ra rb).err = b.err := rfl
@[simp] theorem Block.mersenneMul_cf (b : Block p) (rd ra rb : Buf) : (b.mersenneMul rd ra rb).cf = b.cf := rfl

/-! ## All commands at once -/

/-- The operand check of a command as the gate takes it. -/
def Block.checked (b : Block p) : Instr → Bool
  | .lds _ => true
  | .adds _ => true
  | .subs _ => true
  | .fmul _ ra rb => b.validFermat ra && b.validFermat rb
  | .mmul _ ra rb => b.validMersenne ra && b.validMersenne rb

/-- The block after a command that is performed. -/
def Block.effect (b : Block p) : Instr → Block p
  | .lds rd => b.loadSmall rd
  | .adds rd => b.addSmall rd
  | .subs rd => b.subSmall rd
  | .fmul rd ra rb => b.fermatMul rd ra rb
  | .mmul rd ra rb => b.mersenneMul rd ra rb

/-- Every command is its effect behind the gate. -/
theorem exec_eq (i : Instr) (b : Block p) (evs : List (Event p)) (r : Option (Reply p)) :
    exec i ⟨p, b, evs, r⟩ = .next ⟨p, b.gated (b.checked i) (b.effect i), evs, r⟩ := by
  cases i <;> rfl

theorem Block.checked_iff (b : Block p) (i : Instr) : b.checked i = true ↔ b.OperandsValid i := by
  cases i <;> simp [Block.checked, Block.OperandsValid]

/-- A command whose operands are valid is performed on a ready block. -/
theorem exec_performed {i : Instr} {b : Block p} (hr : b.Ready) (hv : b.OperandsValid i) (evs : List (Event p))
    (r : Option (Reply p)) : exec i ⟨p, b, evs, r⟩ = .next ⟨p, b.effect i, evs, r⟩ := by
  rw [exec_eq, b.gated_performed _ hr.1 hr.2 ((b.checked_iff i).mpr hv)]

/-- Everything that a command can do to the block: nothing, one error, or its effect (`60_exceptions.md` R197). -/
theorem Block.command_cases (b : Block p) (i : Instr) :
    (b.err ≠ .none ∧ b.gated (b.checked i) (b.effect i) = b) ∨
    (b.err = .none ∧ ∃ c, c ≠ .none ∧ b.gated (b.checked i) (b.effect i) = { b with err := c }) ∨
    (b.Ready ∧ b.OperandsValid i ∧ b.gated (b.checked i) (b.effect i) = b.effect i) := by
  rcases b.gated_cases (b.checked i) (b.effect i) with ⟨he, e⟩ | ⟨he, _, e⟩ | ⟨he, _, _, e⟩ | ⟨he, hk, hv, e⟩
  · exact .inl ⟨he, e⟩
  · exact .inr (.inl ⟨he, _, by decide, e⟩)
  · exact .inr (.inl ⟨he, _, by decide, e⟩)
  · exact .inr (.inr ⟨⟨he, hk⟩, (b.checked_iff i).mp hv, e⟩)

/-- What no effect of a command changes: the control registers, the limbs but the destination's in use, and the flags
of the other buffers. -/
theorem Block.effect_frame (b : Block p) (i : Instr) :
    b.LimbsKeptBut (b.effect i) (destOf i) ∧ b.FlagsKeptBut (b.effect i) (destOf i) ∧ b.ControlKept (b.effect i) := by
  cases i with
  | lds rd =>
    exact ⟨⟨fun j h => b.store_limbs_ne _ h, fun k h => b.store_limb_not_in_use rd _ k h⟩,
      fun j h => (Block.setFlag_sf_ne _ _ h).trans rfl, rfl, rfl, rfl⟩
  | adds rd =>
    exact ⟨⟨fun j h => b.store_limbs_ne _ h, fun k h => b.store_limb_not_in_use rd _ k h⟩, fun _ _ => rfl, rfl, rfl, rfl⟩
  | subs rd =>
    exact ⟨⟨fun j h => b.store_limbs_ne _ h, fun k h => b.store_limb_not_in_use rd _ k h⟩, fun _ _ => rfl, rfl, rfl, rfl⟩
  | fmul rd ra rb =>
    obtain ⟨h₁, h₂, h₃, h₄, h₅, h₆, _⟩ := b.storeFermat_frame rd (b.trueValue ra * b.trueValue rb % (2 ^ b.k + 1))
    exact ⟨⟨h₁, h₂⟩, h₃, h₄, h₅, h₆⟩
  | mmul rd ra rb =>
    exact ⟨⟨fun j h => b.store_limbs_ne _ h, fun k h => b.store_limb_not_in_use rd _ k h⟩, fun _ _ => rfl, rfl, rfl, rfl⟩

end Sys2Proof.Machine
end

