-- ==== Sys2Proof/Laws/Decode.lean ====
section
/-! SUPPORT. The fields of a command word and the encoder. -/

namespace Sys2Proof

theorem bitField_lt {w : Nat} (d : Word w) (hi lo : Nat) : bitField d hi lo < 2 ^ (hi + 1 - lo) :=
  Nat.mod_lt _ (Nat.two_pow_pos _)

@[simp] theorem bufField_val {w : Nat} (d : Word w) (lo : Nat) : (bufField d lo).val = d.toNat / 2 ^ lo % 4 := by
  simp [bufField, bitField, show lo + 1 + 1 - lo = 2 by omega]

/-- A command word takes ten bits: the largest is that of `MMUL B3, B3, B3`. -/
theorem commandWord_lt (i : Instr) : commandWord i < 1024 := by
  cases i <;> simp only [commandWord] <;> omega

/-- The data word of a command spells its command word, whatever the width (`30_encoding.md` R80). -/
theorem encode_toNat {w : Nat} (hw : 16 ≤ w) (i : Instr) : (encode w i).toNat = commandWord i := by
  have h : (2 : Nat) ^ 16 ≤ 2 ^ w := Nat.pow_le_pow_right (by decide) hw
  have hi := commandWord_lt i
  rw [encode, BitVec.toNat_ofNat, Nat.mod_eq_of_lt (by omega)]

end Sys2Proof
end

