-- ==== Sys2Proof/Laws/Step.lean ====
section
/-! SUPPORT. What one step can do, event by event. -/

namespace Sys2Proof.Machine

variable {p : Params} (b : Block p) (evs : List (Event p)) (r : Option (Reply p))

@[simp] theorem State.accept_mk (evs' : List (Event p)) : State.accept ⟨p, b, evs, r⟩ evs' = ⟨p, b, evs', r⟩ := rfl

/-- One step performs the event at the head of what is pending. -/
theorem step_cons (e : Event p) : step ⟨p, b, e :: evs, r⟩ = perform ⟨p, b, evs, r⟩ e := rfl

theorem step_nil (s : State) (h : s.pending = []) : step s = .next s := by
  unfold step
  split
  · rfl
  · rename_i h'
    rw [h] at h'
    cases h'

@[simp] theorem completed_next (s : State) : completed (.next s) = .next (s.withReply .done) := rfl

theorem perform_read (a : Nat) : perform ⟨p, b, evs, r⟩ (.read a) = .next ⟨p, b, evs, some (b.read a)⟩ := rfl

theorem perform_write (a : Nat) (d : Word p.w) : perform ⟨p, b, evs, r⟩ (.write a d) = busWrite ⟨p, b, evs, r⟩ a d := rfl

theorem perform_reset (fill : Limbs p) :
    perform ⟨p, b, evs, r⟩ (.reset fill) = .next ⟨p, Block.afterReset fill, evs, none⟩ := rfl

/-- One step on a read. -/
theorem step_read (a : Nat) :
    step ⟨p, b, .read a :: evs, r⟩ = .next ⟨p, b, evs, some (b.read a)⟩ := rfl

/-- One step on a write. -/
theorem step_write (a : Nat) (d : Word p.w) :
    step ⟨p, b, .write a d :: evs, r⟩ = busWrite ⟨p, b, evs, r⟩ a d := rfl

/-- A read of a mapped address. -/
theorem read_of_target {a : Nat} {t : Target p} (h : target p a = some t) : b.read a = .data (b.readTarget t) := by
  simp only [Block.read, h]

/-- A read of anything else. -/
theorem read_of_none {a : Nat} (h : target p a = none) : b.read a = .readError := by
  simp only [Block.read, h]

/-- Everything a bus write can do, by what its address names (`20_memory.md` R56, R58). -/
theorem busWrite_of_target {a : Nat} (d : Word p.w) {t : Target p} (h : target p a = some t) :
    busWrite ⟨p, b, evs, r⟩ a d = match t with
      | .cap | .nlimb => .next ⟨p, b, evs, some .writeError⟩
      | .kexp => .next ⟨p, b.writeKexp d, evs, some .done⟩
      | .val => .next ⟨p, { b with val := d }, evs, some .done⟩
      | .cmd => completed (issueCommand ⟨p, b, evs, r⟩ d)
      | .status => .next ⟨p, b.writeStatus d, evs, some .done⟩
      | .flags => .next ⟨p, b.writeFlags d, evs, some .done⟩
      | .limb j i => .next ⟨p, b.setLimb j i d, evs, some .done⟩ := by
  simp only [busWrite, h]
  cases t <;> rfl

theorem busWrite_of_none {a : Nat} (d : Word p.w) (h : target p a = none) :
    busWrite ⟨p, b, evs, r⟩ a d = .next ⟨p, b, evs, some .writeError⟩ := by
  simp only [busWrite, h]
  rfl

/-- A bus write to CMD, by what its data decodes to (`60_exceptions.md` R197). -/
theorem issueCommand_error {d : Word p.w} {e : Illegal} (h : decode d = .error e) :
    issueCommand ⟨p, b, evs, r⟩ d = .next ⟨p, b.raise .illcmd, evs, r⟩ := by
  simp only [issueCommand, h]
  rfl

theorem issueCommand_ok {d : Word p.w} {i : Instr} (h : decode d = .ok i) :
    issueCommand ⟨p, b, evs, r⟩ d = exec i ⟨p, b, evs, r⟩ := by
  simp only [issueCommand, h]

/-! ## Inversion -/

/-- Two next states of one instance are equal only if their blocks are. -/
theorem block_eq_of_next {b b' : Block p} {evs evs' : List (Event p)} {r r' : Option (Reply p)}
    (h : (Host.Outcome.next ⟨p, b, evs, r⟩ : Host.Outcome State Fault Refusal) = .next ⟨p, b', evs', r'⟩) : b' = b := by
  injection h with h
  injection h with _ h
  exact (eq_of_heq (by simpa using h)).symm

/-- Everything one event can do to the block: a read or a bus error leaves it as it is; reset; the writes to KEXP, VAL,
STATUS, FLAGS and a limb; an illegal command word; a command. -/
theorem step_event_cases {b b' : Block p} {evs : List (Event p)} {r r' : Option (Reply p)} {e : Event p}
    (h : step ⟨p, b, e :: evs, r⟩ = .next ⟨p, b', evs, r'⟩) :
    (∃ a, e = .read a ∧ b' = b) ∨ (∃ fill, e = .reset fill ∧ b' = Block.afterReset fill) ∨
    (∃ a d, e = .write a d ∧ a ≠ 4 ∧ b' = b) ∨
    (∃ d, e = .write 1 d ∧ b' = b.writeKexp d) ∨ (∃ d, e = .write 3 d ∧ b' = { b with val := d }) ∨
    (∃ d, e = .write 5 d ∧ b' = b.writeStatus d) ∨ (∃ d, e = .write 6 d ∧ b' = b.writeFlags d) ∨
    (∃ j i d, e = .write (8 + j.val * p.nmax + i.val) d ∧ b' = b.setLimb j i d) ∨
    (∃ d, e = .write 4 d ∧ (∃ x, decode d = .error x) ∧ b' = b.raise .illcmd) ∨
    ∃ d i, e = .write 4 d ∧ decode d = .ok i ∧ b' = b.gated (b.checked i) (b.effect i) := by
  cases e with
  | read a => exact .inl ⟨a, rfl, block_eq_of_next h⟩
  | reset fill => exact .inr (.inl ⟨fill, rfl, block_eq_of_next h⟩)
  | write a d =>
    rw [step_write] at h
    cases ht : target p a with
    | none =>
      rw [busWrite_of_none b evs r d ht] at h
      refine .inr (.inr (.inl ⟨a, d, rfl, ?_, block_eq_of_next h⟩))
      rintro rfl
      cases ht
    | some t =>
      have ha := addr_of_target ht
      rw [busWrite_of_target b evs r d ht] at h
      cases t <;> simp only [Target.addr] at ha <;> subst ha
      case cap => exact .inr (.inr (.inl ⟨0, d, rfl, by decide, block_eq_of_next h⟩))
      case nlimb => exact .inr (.inr (.inl ⟨2, d, rfl, by decide, block_eq_of_next h⟩))
      case kexp => exact .inr (.inr (.inr (.inl ⟨d, rfl, block_eq_of_next h⟩)))
      case val => exact .inr (.inr (.inr (.inr (.inl ⟨d, rfl, block_eq_of_next h⟩))))
      case status => exact .inr (.inr (.inr (.inr (.inr (.inl ⟨d, rfl, block_eq_of_next h⟩)))))
      case flags => exact .inr (.inr (.inr (.inr (.inr (.inr (.inl ⟨d, rfl, block_eq_of_next h⟩))))))
      case limb j i =>
        exact .inr (.inr (.inr (.inr (.inr (.inr (.inr (.inl ⟨j, i, d, rfl, block_eq_of_next h⟩)))))))
      case cmd =>
        cases hd : decode d with
        | error x =>
          rw [issueCommand_error b evs r hd, completed_next] at h
          exact .inr (.inr (.inr (.inr (.inr (.inr (.inr (.inr (.inl ⟨d, rfl, ⟨x, hd⟩, block_eq_of_next h⟩))))))))
        | ok i =>
          rw [issueCommand_ok b evs r hd, exec_eq, completed_next] at h
          exact .inr (.inr (.inr (.inr (.inr (.inr (.inr (.inr (.inr ⟨d, i, rfl, hd, block_eq_of_next h⟩))))))))

end Sys2Proof.Machine
end

