-- ==== Sys2Proof/Laws/Driver.lean ====
section
/-! SUPPORT. What each line of a host program does to the machine. -/

namespace Sys2Proof.Machine

variable {p : Params} (b : Block p) (evs : List (Event p)) (r : Option (Reply p))

theorem issue_clrerr : issue .clrerr ⟨p, b, evs, r⟩ = ⟨p, b.writeStatus (BitVec.ofNat p.w 1), evs, some .done⟩ := rfl

theorem issue_setk (k : Nat) :
    issue (.setk k) ⟨p, b, evs, r⟩ = ⟨p, b.writeKexp (BitVec.ofNat p.w k), evs, some .done⟩ := rfl

theorem issue_setv (v : Nat) :
    issue (.setv v) ⟨p, b, evs, r⟩ = ⟨p, { b with val := BitVec.ofNat p.w v }, evs, some .done⟩ := rfl

theorem issue_setf (m : Nat) :
    issue (.setf m) ⟨p, b, evs, r⟩ = ⟨p, b.writeFlags (BitVec.ofNat p.w m), evs, some .done⟩ := rfl

theorem ask_rdst :
    ask .rdst ⟨p, b, evs, r⟩ = (b.statusWord.toNat, ⟨p, b, evs, some (.data b.statusWord)⟩) := rfl

theorem ask_rdf : ask .rdf ⟨p, b, evs, r⟩ = (b.flagsWord.toNat, ⟨p, b, evs, some (.data b.flagsWord)⟩) := rfl

/-- A limb write by a host. -/
theorem issue_wrl (j : Buf) (i : Fin p.nmax) (v : Nat) :
    issue (.wrl j i.val v) ⟨p, b, evs, r⟩ = ⟨p, b.setLimb j i (BitVec.ofNat p.w v), evs, some .done⟩ := by
  show offer (.write (8 + j.val * p.nmax + i.val) v) ⟨p, b, evs, r⟩ = _
  unfold offer
  simp only [Txn.event]
  rw [step_write, busWrite_of_target b evs r _ (target_limb p j i)]

/-- A limb read by a host. -/
theorem ask_rdl (j : Buf) (i : Fin p.nmax) :
    ask (.rdl j i.val) ⟨p, b, evs, r⟩ = ((b.limb j i).toNat, ⟨p, b, evs, some (.data (b.limb j i))⟩) := by
  have h : issue (.rdl j i.val) ⟨p, b, evs, r⟩ = ⟨p, b, evs, some (.data (b.limb j i))⟩ := by
    show offer (.read (8 + j.val * p.nmax + i.val)) ⟨p, b, evs, r⟩ = _
    unfold offer
    simp only [Txn.event]
    rw [step_read, read_of_target b (target_limb p j i)]
    rfl
  unfold ask
  rw [h]
  rfl

@[simp] theorem compareWith_error (n : Nat) (e : HostError) : compareWith n (.error e) = .error e := rfl

@[simp] theorem compareWith_ok (n z : Nat) (s : State) : compareWith n (.ok (z, s)) = .ok (decide (z = n), s) := rfl

end Sys2Proof.Machine
end

