-- ==== Sys2Proof/Laws/PerInstr.lean ====
section
/-! SUPPORT. Statements about every instruction, one lemma per constructor. -/

namespace Sys2Proof.Laws

/-- The mnemonic of an instruction's row in `30_encoding.md` R82. -/
def mnemonicOf : Instr → String
  | .lds _ => "LDS"
  | .adds _ => "ADDS"
  | .subs _ => "SUBS"
  | .fmul _ _ _ => "FMUL"
  | .mmul _ _ _ => "MMUL"

/-- The rows of the opcode map that admit a command word. -/
def rowsAdmitting (word : Nat) : List String := (opcodeRows.filter fun r => r.admits word).map OpcodeRow.mnemonic

/-- The instruction's command word is admitted by its own row of the opcode map and by no other (`30_encoding.md`
R82). -/
def WordMatchesRow.Statement (i : Instr) : Prop := rowsAdmitting (commandWord i) = [mnemonicOf i]

theorem WordMatchesRow.lds (rd : Buf) : WordMatchesRow.Statement (.lds rd) := by
  revert rd; unfold WordMatchesRow.Statement; decide

theorem WordMatchesRow.adds (rd : Buf) : WordMatchesRow.Statement (.adds rd) := by
  revert rd; unfold WordMatchesRow.Statement; decide

theorem WordMatchesRow.subs (rd : Buf) : WordMatchesRow.Statement (.subs rd) := by
  revert rd; unfold WordMatchesRow.Statement; decide

theorem WordMatchesRow.fmul (rd ra rb : Buf) : WordMatchesRow.Statement (.fmul rd ra rb) := by
  revert rd ra rb; unfold WordMatchesRow.Statement; decide

theorem WordMatchesRow.mmul (rd ra rb : Buf) : WordMatchesRow.Statement (.mmul rd ra rb) := by
  revert rd ra rb; unfold WordMatchesRow.Statement; decide

end Sys2Proof.Laws
end

