-- ==== Sys2Proof/Laws/Reference.lean ====
section
/-! SUPPORT. The document's algorithms, equation by equation. -/

namespace Sys2Proof.Machine

@[simp] theorem rippleAdd_nil {w : Nat} (c : Nat) : rippleAdd c ([] : List (Word w)) = ([], c) := rfl

@[simp] theorem rippleAdd_cons {w : Nat} (c : Nat) (l : Word w) (ls : List (Word w)) :
    rippleAdd c (l :: ls) =
      (BitVec.ofNat w (l.toNat + c) :: (rippleAdd ((l.toNat + c) / 2 ^ w) ls).1,
        (rippleAdd ((l.toNat + c) / 2 ^ w) ls).2) := rfl

@[simp] theorem rippleSub_nil {w : Nat} (c : Nat) : rippleSub c ([] : List (Word w)) = ([], c) := rfl

/-- A limb at least as large as the amount takes all of it. -/
theorem rippleSub_cons_of_le {w c : Nat} {l : Word w} (ls : List (Word w)) (h : c ≤ l.toNat) :
    rippleSub c (l :: ls) = (BitVec.ofNat w (l.toNat - c) :: (rippleSub 0 ls).1, (rippleSub 0 ls).2) := by
  rw [rippleSub, if_pos h]

/-- A smaller limb wraps and passes a borrow of one. -/
theorem rippleSub_cons_of_lt {w c : Nat} {l : Word w} (ls : List (Word w)) (h : l.toNat < c) :
    rippleSub c (l :: ls) = (BitVec.ofNat w (l.toNat + 2 ^ w - c) :: (rippleSub 1 ls).1, (rippleSub 1 ls).2) := by
  rw [rippleSub, if_neg (Nat.not_le.mpr h)]

@[simp] theorem schoolbookRow_nil (w a i j c : Nat) (prod : List Nat) :
    schoolbookRow w a i [] j c prod = prod.set (i + j) c := rfl

@[simp] theorem schoolbookRow_cons (w a i j c y : Nat) (ys prod : List Nat) :
    schoolbookRow w a i (y :: ys) j c prod =
      schoolbookRow w a i ys (j + 1) ((prod.getD (i + j) 0 + a * y + c) / 2 ^ w)
        (prod.set (i + j) ((prod.getD (i + j) 0 + a * y + c) % 2 ^ w)) := rfl

/-- The product register keeps its length. -/
@[simp] theorem schoolbookRow_length (w a i : Nat) (ys : List Nat) :
    ∀ (j c : Nat) (prod : List Nat), (schoolbookRow w a i ys j c prod).length = prod.length := by
  induction ys with
  | nil => intro j c prod; simp
  | cons y ys ih => intro j c prod; simp [ih]

@[simp] theorem schoolbookRows_length (w : Nat) (ys xs : List Nat) :
    ∀ (i : Nat) (prod : List Nat), (schoolbookRows w ys xs i prod).length = prod.length := by
  induction xs with
  | nil => intro i prod; rfl
  | cons a as ih => intro i prod; simp [schoolbookRows, ih]

@[simp] theorem digitsValue_nil (w : Nat) : digitsValue w [] = 0 := rfl

@[simp] theorem digitsValue_cons (w d : Nat) (ds : List Nat) :
    digitsValue w (d :: ds) = d + 2 ^ w * digitsValue w ds := rfl

/-- A product is its two halves. -/
theorem split_eq (k prod : Nat) : splitHigh k prod * 2 ^ k + splitLow k prod = prod := by
  unfold splitHigh splitLow
  rw [Nat.mul_comm]
  exact Nat.div_add_mod prod (2 ^ k)

end Sys2Proof.Machine
end

