-- ==== Sys2Proof/Tests/Slice0.lean ====
section
/-! SUPPORT. Small tests. Expected values are the spec's worked examples (30_encoding.md R91, 40_limb_carry.md,
41_fermat_modmul.md, 42_mersenne_modmul.md) and its vectors (95_test_vectors.md, whose row is named in the comment).
After them, for every statement of Certificates/Slice0/Obligations.lean that has hypotheses, one theorem that shows
concrete values that meet them. -/

namespace Sys2Proof.Tests

open Sys2Proof.Machine

/-! ## Checks on raw data -/

theorem test_width_below_16_refused : widthWf 15 = false := by decide
theorem test_no_limbs_refused : capacityWf 0 = false := by decide
theorem test_exponent_does_not_fit_refused : exponentFitsWf 16 4096 = false := by decide
theorem test_exponent_fits_accepted : exponentFitsWf 16 4095 = true := by decide
theorem test_params_each_check_refuses :
    paramsWf 15 1 = false ∧ paramsWf 16 0 = false ∧ paramsWf 16 4096 = false ∧ paramsWf 16 4 = true := by decide
theorem test_word_op0_refused : wordWf (0x0000#32) = false := by decide
theorem test_word_unused_field_refused : wordWf (0x0041#32) = false := by decide
theorem test_word_reserved_refused : wordWf (0x0404#32) = false := by decide
theorem test_word_upper_bits_refused : wordWf (0x00010004#32) = false := by decide
theorem test_word_fmul_accepted : wordWf (0x03F4#32) = true := by decide

/-! ## Decoding, from words written out field by field (30_encoding.md R81; 95_test_vectors.md section 5) -/

-- rsv 000000, rb 00, ra 00, rd 11, op 0001
theorem test_decode_lds : decode (0b0000000000110001#16) = .ok (.lds 3) := by decide
-- rsv 000000, rb 00, ra 00, rd 01, op 0010
theorem test_decode_adds : decode (0b0000000000010010#16) = .ok (.adds 1) := by decide
-- rsv 000000, rb 00, ra 00, rd 10, op 0011
theorem test_decode_subs : decode (0b0000000000100011#16) = .ok (.subs 2) := by decide
-- rsv 000000, rb 01, ra 00, rd 10, op 0100
theorem test_decode_fmul : decode (0b0000000100100100#16) = .ok (.fmul 2 0 1) := by decide
-- rsv 000000, rb 01, ra 10, rd 11, op 0101
theorem test_decode_mmul : decode (0b0000000110110101#16) = .ok (.mmul 3 2 1) := by decide

theorem test_decode_illegal_by_name :
    decode (0x0006#16) = .error .opcode ∧ decode (0x000F#16) = .error .opcode ∧
    decode (0x0102#16) = .error .unusedField ∧ decode (0x8005#16) = .error .reservedField ∧
    decode (0x00010004#32) = .error .upperBits := by decide

theorem test_encode_words :
    encode 16 (.lds 2) = 0x0021#16 ∧ encode 16 (.subs 1) = 0x0013#16 ∧ encode 32 (.fmul 0 1 1) = 0x0144#32 ∧
    encode 64 (.mmul 3 2 1) = 0x01B5#64 := by decide

theorem test_decode_table_word :
    decodeTableWord 16 0x0124 = some (.fmul 2 0 1) ∧ decodeTableWord 16 0x0404 = none := by decide

/-! ## Small states -/

/-- W = 16 and NMAX = 4, as in `95_test_vectors.md` sections 6 and 7. -/
def small : Params := Params.ofWf 16 4 (by decide)

/-- A buffer of the small instance. -/
def limbs (l₀ l₁ l₂ l₃ : Nat) : Vector (Word small.w) small.nmax :=
  #v[BitVec.ofNat 16 l₀, BitVec.ofNat 16 l₁, BitVec.ofNat 16 l₂, BitVec.ofNat 16 l₃]

/-- A small block with KEXP = k, VAL = v, the first three limbs of B0 and limb 0 of B1 as given (B0 limb 3 and all of B2
and B3 fixed), flags of B0 and B1 as given. -/
def smallBlock (k v l₀ l₁ l₂ m₀ : Nat) (f₀ f₁ : Bool) : Block small :=
  { limbs := #v[limbs l₀ l₁ l₂ 0x7777, limbs m₀ 0 0 0, limbs 0xBEEF 0xDEAD 0 0, limbs 0 0 0 0x1234]
    sf := #v[f₀, f₁, false, false]
    kexp := BitVec.ofNat 16 k
    val := BitVec.ofNat 16 v
    err := .none
    cf := false }

/-- The block with an error recorded. -/
def failed (b : Block small) (c : ErrCode) : Block small := { b with err := c }

/-- The small machine with these events offered. -/
def offering (b : Block small) (es : List (Event small)) : State := ⟨small, b, es, none⟩

/-- What a function sees of the next state. -/
def after {α : Type} (o : Host.Outcome State Fault Refusal) (f : State → α) : Option α :=
  match o with
  | .next s => some (f s)
  | .fault _ => none
  | .refused _ => none

/-- What a step answered on the bus: the data as a number, and the bus error. -/
def answer (o : Host.Outcome State Fault Refusal) : Option (Option (Nat × Bool)) :=
  after o fun s => s.reply.map fun r => ((r.rdata.map BitVec.toNat).getD 0, r.err)

/-! ## One step per test -/

-- L1: the limbs in use, the limb not in use, the flag
theorem test_lds_worked_example :
    after (step (offering (smallBlock 32 3 0xBEEF 0xDEAD 0x7777 0 true true) [.write 4 0x0001#16]))
      (fun s => (s.block.limbs[0].toList.map BitVec.toNat, s.block.sf.toList, s.block.err)) =
      some ([3, 0, 0x7777, 0x7777], [false, true, false, false], .none) := by decide

-- E1: KEXP = 0
theorem test_lds_without_exponent :
    after (exec (.lds 0) (offering (smallBlock 0 3 7 8 9 0 true false) []))
      (fun s => (s.block.limbs[0].toList.map BitVec.toNat, s.block.sf[0], s.block.err)) =
      some ([7, 8, 9, 0x7777], true, .invexp) := by decide

-- A2: the carry escapes the top limb in use
theorem test_adds_carry_escapes :
    after (step (offering (smallBlock 32 1 0xFFFF 0xFFFF 5 0 false false) [.write 4 0x0002#16]))
      (fun s => (s.block.limbs[0].toList.map BitVec.toNat, s.block.cf)) = some ([0, 0, 5, 0x7777], true) := by decide

-- A6: past bit K, below the boundary
theorem test_adds_passes_bit_k :
    after (exec (.adds 0) (offering (smallBlock 20 1 0xFFFF 0x000F 0 0 false false) []))
      (fun s => (s.block.limbs[0].toList.map BitVec.toNat, s.block.cf)) =
      some ([0, 0x0010, 0, 0x7777], false) := by decide

-- B6: the wrap is at 2^32, not at 2^20
theorem test_subs_borrow_escapes :
    after (step (offering (smallBlock 20 2 1 0 7 0 false false) [.write 4 0x0003#16]))
      (fun s => (s.block.limbs[0].toList.map BitVec.toNat, s.block.cf)) =
      some ([0xFFFF, 0xFFFF, 7, 0x7777], true) := by decide

-- B8: ripple through two limbs
theorem test_subs_ripple :
    after (exec (.subs 0) (offering (smallBlock 48 1 0 0 1 0 false false) []))
      (fun s => (s.block.limbs[0].toList.map BitVec.toNat, s.block.cf)) =
      some ([0xFFFF, 0xFFFF, 0, 0x7777], false) := by decide

-- F8 issued in place, as section 3 says: 200 * 100 mod 257 = 211 in B0
theorem test_fmul_in_place :
    after (step (offering (smallBlock 8 0 200 0 0 100 false false) [.write 4 0x0104#16]))
      (fun s => (s.block.stored 0, s.block.sf[0], s.block.err)) = some (211, false, .none) := by decide

-- F9: 13 * 13 mod 17 = 16, flagged; the destination held other limbs and no flag
theorem test_fmul_result_flagged :
    after (exec (.fmul 2 0 1) (offering (smallBlock 4 0 13 0 0 13 false false) []))
      (fun s => (s.block.limbs[2].toList.map BitVec.toNat, s.block.sf.toList)) =
      some ([0, 0xDEAD, 0, 0], [false, false, true, false]) := by decide

-- M8: 14 * 14 mod 31 = 10
theorem test_mmul_worked_example :
    after (step (offering (smallBlock 5 0 14 0 0 0 false true) [.write 4 0x0015#16]))
      (fun s => (s.block.limbs[1].toList.map BitVec.toNat, s.block.sf.toList)) =
      some ([10, 0, 0, 0], [false, true, false, false]) := by decide

-- E15: the all-ones pattern is zero, flags are ignored
theorem test_mmul_all_ones :
    after (exec (.mmul 1 0 0) (offering (smallBlock 8 0 0xFF 0 0 7 true false) []))
      (fun s => (s.block.stored 1, s.block.err)) = some (0, .none) := by decide

/-! ## Errors and the bus (95_test_vectors.md section 6) -/

-- E5: first error wins
theorem test_first_error_wins :
    after (step (offering (failed (smallBlock 0 0 0 0 0 0 false false) .alloc) [.write 1 0#16]))
      (fun s => (s.block.err, s.block.kexp.toNat)) = some (.alloc, 0) := by decide

-- E10: ILLCMD before INVEXP
theorem test_illegal_before_no_exponent :
    after (step (offering (smallBlock 0 0 0 0 0 0 false false) [.write 4 0x0006#16])) (fun s => s.block.err) =
      some .illcmd := by decide

-- E14: a set flag over a non-zero stored value
theorem test_flag_over_nonzero_is_range :
    after (step (offering (smallBlock 8 0 5 0 0 3 true false) [.write 4 0x0014#16]))
      (fun s => (s.block.err, s.block.stored 1)) = some (.range, 3) := by decide

-- E18: STATUS reads 0x0004
theorem test_status_reads_error :
    answer (step (offering (failed (smallBlock 8 0 0 0 0 0 false false) .range) [.read 5])) =
      some (some (4, false)) := by decide

-- E20: bus errors
theorem test_bus_errors :
    answer (step (offering (smallBlock 8 0 1 1 1 1 true true) [.read 7])) = some (some (0, true)) ∧
    answer (step (offering (smallBlock 8 0 1 1 1 1 true true) [.read 24])) = some (some (0, true)) ∧
    answer (step (offering (smallBlock 8 0 1 1 1 1 true true) [.write 2 1#16])) = some (some (0, true)) := by decide

-- E21: the last mapped address is LIMB[3][3]
theorem test_last_limb_address :
    answer (step (offering (smallBlock 8 0 0 0 0 0 false false) [.read 23])) = some (some (0x1234, false)) := by decide

-- `20_memory.md` R50: AW = ceil(log2(24)) = 5 lines; address 31 can be offered, 32 cannot
theorem test_address_port_width :
    addrWidth small = 5 ∧ (Event.read 31 : Event small).onPort = true ∧ (Event.read 32 : Event small).onPort = false := by
  decide

/-! ## The host's two questions -/

theorem test_fetch_word_runs_first :
    step (State.reset.withFetchWord 16 0x0124) = completed (exec (.fmul 2 0 1) State.reset) := by rfl

/-! ## Host software -/

-- `95_test_vectors.md` section 8
theorem test_trial_division :
    trialDivision 3 1 = true ∧ trialDivision 5 2 = true ∧ trialDivision 9 3 = false ∧ trialDivision 25 5 = false ∧
    trialDivision 49 7 = false ∧ trialDivision 31 5 = true ∧ trialDivision 4 2 = false := by decide

-- S5: no transaction is issued, so the state is untouched
theorem test_trial_division_short_circuit (s : State) : mersennePrimeP 9 s = .ok (false, s) := by rfl

-- S8: no transaction is issued
theorem test_small_cases (s : State) : pepinPrimeP 0 s = .ok (true, s) ∧ mersennePrimeP 2 s = .ok (true, s) :=
  ⟨rfl, rfl⟩

/-! ## Witnesses: encoding -/

/-- The least legal width, and a word that is no command at it. -/
theorem witness_DecodeEncodeAgree : 16 ≤ 16 ∧ ∀ i : Instr, (0x0000#16).toNat ≠ commandWord i := by
  refine ⟨by decide, fun i => ?_⟩
  cases i <;> simp only [commandWord] <;> simp <;> omega

/-- One word that decodes, twice; and one word with op 1 and op 3 each whose unused field is not zero. -/
theorem witness_EachCommandHasOneEncoding :
    16 ≤ 16 ∧ decode (0x0021#16) = .ok (.lds 2) ∧
    (1 ≤ (0x0041#16).toNat % 16 ∧ (0x0041#16).toNat % 16 ≤ 3 ∧ (0x0041#16).toNat / 64 % 4 ≠ 0) ∧
    (1 ≤ (0x0303#16).toNat % 16 ∧ (0x0303#16).toNat % 16 ≤ 3 ∧ (0x0303#16).toNat / 256 % 4 ≠ 0) := by decide

theorem witness_DecoderAcceptsTheOpcodeMap : 16 ≤ 16 := by decide

/-! ## Witnesses: step and bus -/

theorem witness_StepRunsTheDecodedCommand : decode (0x0014#small.w) = .ok (.fmul 1 0 0) := by decide

theorem witness_IdleStepKeepsState : State.reset.pending = [] := rfl

/-- The edges of the unmapped addresses: 7 and 24 are in, 6, 8 and 23 are mapped. -/
theorem witness_ReadsReturnTheMappedWord :
    8 + 4 * small.nmax ≤ 24 ∧ ¬ 8 + 4 * small.nmax ≤ 23 ∧ target small 7 = none ∧ target small 24 = none ∧
    target small 6 = some .flags ∧ target small 8 = some (.limb 0 (0 : Fin 4)) ∧
    target small 23 = some (.limb 3 (3 : Fin 4)) := by decide

/-- The same edges, for the addresses that refuse a read and those that refuse a write. -/
theorem witness_BusErrorsChangeNothing :
    (∀ a ∈ [7, 24], a = 7 ∨ 8 + 4 * small.nmax ≤ a) ∧
    ∀ a ∈ [0, 2, 7, 24], a = 0 ∨ a = 2 ∨ a = 7 ∨ 8 + 4 * small.nmax ≤ a := by decide

/-- KMAX = 64: the exponents 0, 1, 64 and 65 fall under one clause each. -/
theorem witness_KexpWriteIsChecked :
    (0#small.w).toNat = 0 ∧ (1 ≤ (1#small.w).toNat ∧ (1#small.w).toNat ≤ small.w * small.nmax) ∧
    (1 ≤ (64#small.w).toNat ∧ (64#small.w).toNat ≤ small.w * small.nmax) ∧
    small.w * small.nmax < (65#small.w).toNat := by decide

/-- KEXP = 0 and KEXP at a limb boundary and one past it. -/
theorem witness_CapAndNlimbAreReadOnlyViews :
    (smallBlock 0 0 0 0 0 0 false false).kexp.toNat = 0 ∧ (smallBlock 16 0 0 0 0 0 false false).n = 1 ∧
    (smallBlock 17 0 0 0 0 0 false false).n = 2 ∧ (smallBlock 17 0 0 0 0 0 false false).kexp.toNat ≠ 0 := by decide

/-- A write that does something: 3 to VAL. -/
theorem witness_NonCommandWritesAreIdempotent : (3 : Nat) ≠ 4 := by decide

/-- With K = 8 every small block without an error performs commands, whatever else it holds. -/
theorem ready_of_eight (v l₀ l₁ l₂ m₀ : Nat) (f₀ f₁ : Bool) :
    (smallBlock 8 v l₀ l₁ l₂ m₀ f₀ f₁).Ready ∧ (smallBlock 8 v l₀ l₁ l₂ m₀ f₀ f₁).Legal :=
  ⟨⟨rfl, show (8 : Nat) ≠ 0 by decide⟩, show (8 : Nat) ≤ 64 by decide⟩

/-! ## Witnesses: errors -/

theorem witness_InvexpCauses : State.reset.block.kexp.toNat = 0 := rfl

/-- Opcode 6 is no command. -/
theorem witness_IllegalCommandRaisesIllcmd : ∀ i : Instr, (0x0006#small.w).toNat ≠ commandWord i := by
  intro i
  have h : (0x0006#small.w).toNat = 6 := rfl
  rw [h]
  cases i <;> simp only [commandWord] <;> omega

/-- K = 8. B0 at the edge of the range, in and out, with and without a flag: each clause's hypotheses are met. -/
theorem witness_RangeCauses :
    (smallBlock 8 0 255 0 0 1 false false).Ready ∧
    (2 ^ 8 ≤ (smallBlock 8 0 256 0 0 1 false false).stored 0) ∧
    ((smallBlock 8 0 1 0 0 1 true false).sf[0] = true ∧ (smallBlock 8 0 1 0 0 1 true false).stored 0 ≠ 0) ∧
    ¬ 2 ^ 8 ≤ (smallBlock 8 0 255 0 0 1 false false).stored 0 ∧
    (smallBlock 8 0 0 0 0 1 true false).validFermat 0 = true ∧
    (smallBlock 8 0 255 0 0 1 true false).validMersenne 0 = true := by
  unfold Block.Ready; decide

/-- A command dropped, and a write to STATUS that does not clear. -/
theorem witness_ErrorIsStickyAndDropsCommands :
    (failed (smallBlock 8 0 1 0 0 1 false false) .range).err ≠ .none ∧
    step (offering (failed (smallBlock 8 0 1 0 0 1 false false) .range) [.write 4 0x0001#16]) =
      .next ⟨small, failed (smallBlock 8 0 1 0 0 1 false false) .range, [], some .done⟩ ∧
    (0x0010#small.w).getLsbD 0 = false ∧
    step (offering (failed (smallBlock 8 0 1 0 0 1 false false) .range) [.write 5 0x0010#16]) =
      .next ⟨small, failed (smallBlock 8 0 1 0 0 1 false false) .range, [], some .done⟩ :=
  ⟨by decide, rfl, by decide, rfl⟩

theorem witness_CommandGateAndOrderOfChecks : ∀ d : Word small.w, (Event.read 5 : Event small) ≠ .write 4 d := by
  intro d h; cases h

theorem witness_GoodCommandsEndWell :
    (smallBlock 8 0 200 0 0 100 false false).Ready ∧
    (smallBlock 8 0 200 0 0 100 false false).OperandsValid (.fmul 2 0 1) ∧
    decode (0x0124#small.w) = .ok (.fmul 2 0 1) := by
  unfold Block.Ready Block.OperandsValid; decide

/-! ## Witnesses: LDS, ADDS, SUBS -/

/-- KEXP = 20, two limbs in use. -/
theorem witness_LdsLoadsSmallValue :
    (smallBlock 20 3 1 2 3 0 true false).Ready ∧ (smallBlock 20 3 1 2 3 0 true false).Legal ∧
    (smallBlock 20 3 1 2 3 0 true false).n = 2 := by
  unfold Block.Ready Block.Legal; decide

/-- KEXP = 64 = W*NMAX, the largest legal exponent. -/
theorem witness_AddsAddsWithCarry :
    (smallBlock 64 3 1 2 3 0 false false).Ready ∧ (smallBlock 64 3 1 2 3 0 false false).Legal := by
  unfold Block.Ready Block.Legal; decide

theorem witness_SubsSubtractsWithBorrow :
    (smallBlock 1 3 1 2 3 0 false false).Ready ∧ (smallBlock 1 3 1 2 3 0 false false).Legal := by
  unfold Block.Ready Block.Legal; decide

theorem witness_AddsIsTheCarryRipple :
    (smallBlock 48 0xFFFF 0xFFFF 0xFFFF 3 0 false false).Ready ∧
    (smallBlock 48 0xFFFF 0xFFFF 0xFFFF 3 0 false false).Legal := by
  unfold Block.Ready Block.Legal; decide

theorem witness_SubsIsTheBorrowRipple :
    (smallBlock 48 0xFFFF 0 0 3 0 false false).Ready ∧ (smallBlock 48 0xFFFF 0 0 3 0 false false).Legal := by
  unfold Block.Ready Block.Legal; decide

theorem witness_AddsAndSubsAreInverse :
    (smallBlock 32 2 1 0 3 0 false false).Ready ∧ (smallBlock 32 2 1 0 3 0 false false).Legal := by
  unfold Block.Ready Block.Legal; decide

/-- K = 8: the amount t at its largest, 2^K; and an aligned K. -/
theorem witness_BorrowMaskedToKBits :
    (smallBlock 8 0x100 0 0 0 0 false false).Ready ∧ (smallBlock 8 0x100 0 0 0 0 false false).Legal ∧
    (smallBlock 8 0x100 0 0 0 0 false false).stored 0 < 0x100 ∧
    0x100 - (smallBlock 8 0x100 0 0 0 0 false false).stored 0 ≤ 2 ^ 8 ∧
    (smallBlock 32 0 0 0 0 0 false false).k % small.w = 0 := by
  unfold Block.Ready Block.Legal; decide

/-! ## Witnesses: FMUL -/

theorem witness_FmulMultipliesModulo :
    (smallBlock 20 0 0xFFFF 0xF 9 5 false false).Ready ∧ (smallBlock 20 0 0xFFFF 0xF 9 5 false false).Legal ∧
    (smallBlock 20 0 0xFFFF 0xF 9 5 false false).validFermat 0 = true ∧
    (smallBlock 20 0 0xFFFF 0xF 9 5 false false).validFermat 1 = true := by
  unfold Block.Ready Block.Legal; decide

/-- Three states that meet the hypotheses: K = 8 with 200 and 100 (the difference is negative), K = 4 with 13 and 13 (it
is -1), K = 8 with 3 and 5 (it is 15). -/
theorem witness_FmulIsSplitSubtractCorrect :
    ∀ t ∈ [(8, 200, 100, -46), (4, 13, 13, -1), (8, 3, 5, 15)],
      let b := smallBlock t.1 0 t.2.1 0 0 t.2.2.1 false false
      (b.err = .none ∧ b.k ≠ 0) ∧ b.k ≤ kmax small ∧ b.validFermat 0 = true ∧ b.validFermat 1 = true ∧
      b.sf[0] = false ∧ b.sf[1] = false ∧
      ((b.stored 0 * b.stored 1 % 2 ^ b.k : Nat) : Int) - (b.stored 0 * b.stored 1 / 2 ^ b.k : Nat) = t.2.2.2 := by
  decide

/-- All four rows of the table, the flagged rows with the other operand 0, 1 and 163. -/
theorem witness_FmulFlaggedOperandsNegate :
    (smallBlock 8 0 0 0 0 163 true false).Ready ∧ (smallBlock 8 0 0 0 0 163 true false).Legal ∧
    (∀ y ∈ [0, 1, 163], (smallBlock 8 0 0 0 0 y true false).validFermat 0 = true ∧
      (smallBlock 8 0 0 0 0 y true false).validFermat 1 = true ∧
      (smallBlock 8 0 y 0 0 0 false true).validFermat 0 = true ∧
      (smallBlock 8 0 y 0 0 0 false true).validFermat 1 = true) ∧
    (smallBlock 8 0 0 0 0 0 true true).validFermat 0 = true ∧
    (smallBlock 8 0 0 0 0 0 true true).validFermat 1 = true := by
  unfold Block.Ready Block.Legal; decide

theorem witness_FmulFromTheSchoolbookProduct :
    (smallBlock 32 0 0xFFFF 0xFFFF 0 0xFFFF false false).Ready ∧
    (smallBlock 32 0 0xFFFF 0xFFFF 0 0xFFFF false false).Legal ∧
    (smallBlock 32 0 0xFFFF 0xFFFF 0 0xFFFF false false).validFermat 0 = true ∧
    (smallBlock 32 0 0xFFFF 0xFFFF 0 0xFFFF false false).validFermat 1 = true ∧
    (smallBlock 32 0 0xFFFF 0xFFFF 0 0xFFFF false false).sf[0] = false ∧
    (smallBlock 32 0 0xFFFF 0xFFFF 0 0xFFFF false false).sf[1] = false := by
  unfold Block.Ready Block.Legal; decide

theorem witness_FmulFoldedAdjustment :
    (smallBlock 8 0 0 0 0 1 true false).Ready ∧ (smallBlock 8 0 0 0 0 1 true false).Legal ∧
    (smallBlock 8 0 0 0 0 1 true false).validFermat 0 = true ∧
    (smallBlock 8 0 0 0 0 1 true false).validFermat 1 = true := by
  unfold Block.Ready Block.Legal; decide

/-- K = 1, the smallest exponent, modulus 3: a zero product and a product that is -1. -/
theorem witness_FmulResultIsCanonical :
    (smallBlock 1 0 0 0 0 1 true false).Ready ∧ (smallBlock 1 0 0 0 0 1 true false).Legal ∧
    (smallBlock 1 0 0 0 0 1 true false).validFermat 0 = true ∧
    (smallBlock 1 0 0 0 0 1 true false).validFermat 1 = true ∧
    2 ^ 1 + 1 ∣ (smallBlock 1 0 0 0 0 1 true false).trueValue 0 * (smallBlock 1 0 0 0 0 1 true false).trueValue 1 + 1 ∧
    (smallBlock 1 0 0 0 0 1 false false).trueValue 0 = 0 := by
  unfold Block.Ready Block.Legal; decide

/-- Squaring the residue 1 in place, for ever. -/
theorem witness_FmulSquaringChain :
    (smallBlock 8 0 1 0 0 0 false false).Ready ∧ (smallBlock 8 0 1 0 0 0 false false).Legal ∧
    (smallBlock 8 0 1 0 0 0 false false).validFermat 0 = true ∧
    ∀ _j : Nat, exec (.fmul 0 0 0) ⟨small, smallBlock 8 0 1 0 0 0 false false, [], none⟩ =
      .next ⟨small, smallBlock 8 0 1 0 0 0 false false, [], none⟩ :=
  ⟨⟨rfl, by decide⟩, by unfold Block.Legal; decide, by decide, fun _ => rfl⟩

/-! ## Witnesses: MMUL -/

theorem witness_MmulMultipliesModulo :
    (smallBlock 20 0 0xFFFF 0xF 9 5 true true).Ready ∧ (smallBlock 20 0 0xFFFF 0xF 9 5 true true).Legal ∧
    (smallBlock 20 0 0xFFFF 0xF 9 5 true true).validMersenne 0 = true ∧
    (smallBlock 20 0 0xFFFF 0xF 9 5 true true).validMersenne 1 = true := by
  unfold Block.Ready Block.Legal; decide

/-- K = 8 with 15 and 17 (the sum is the modulus) and K = 5 with 14 and 14 (below it). -/
theorem witness_MmulIsFoldAndCorrect :
    (smallBlock 8 0 15 0 0 17 false false).Ready ∧ (smallBlock 8 0 15 0 0 17 false false).Legal ∧
    (smallBlock 8 0 15 0 0 17 false false).validMersenne 0 = true ∧
    (smallBlock 8 0 15 0 0 17 false false).validMersenne 1 = true ∧
    15 * 17 / 2 ^ 8 + 15 * 17 % 2 ^ 8 = 2 ^ 8 - 1 ∧ 14 * 14 / 2 ^ 5 + 14 * 14 % 2 ^ 5 < 2 ^ 5 - 1 := by
  unfold Block.Ready Block.Legal; decide

theorem witness_MmulFromTheSchoolbookProduct :
    (smallBlock 32 0 0xFFFF 0xFFFF 0 0xFFFF true false).Ready ∧
    (smallBlock 32 0 0xFFFF 0xFFFF 0 0xFFFF true false).Legal ∧
    (smallBlock 32 0 0xFFFF 0xFFFF 0 0xFFFF true false).validMersenne 0 = true ∧
    (smallBlock 32 0 0xFFFF 0xFFFF 0 0xFFFF true false).validMersenne 1 = true := by
  unfold Block.Ready Block.Legal; decide

/-- The pattern for an aligned K and for one that is not. -/
theorem witness_MmulTakesAllOnesAsZero :
    (smallBlock 20 0 0xFFFF 0xF 0 5 false false).Ready ∧ (smallBlock 20 0 0xFFFF 0xF 0 5 false false).Legal ∧
    (smallBlock 20 0 0xFFFF 0xF 0 5 false false).stored 0 = 2 ^ 20 - 1 ∧
    (smallBlock 16 0 0xFFFF 0 0 5 false false).stored 0 = 2 ^ 16 - 1 ∧
    (smallBlock 20 0 0xFFFF 0xF 0 5 false false).validMersenne 0 = true ∧
    (smallBlock 20 0 0xFFFF 0xF 0 5 false false).validMersenne 1 = true := by
  unfold Block.Ready Block.Legal; decide

/-- K = 5: residues whose square is 0, 1 and above. -/
theorem witness_LucasLehmerStep :
    (smallBlock 5 0 14 0 0 0 false false).Ready ∧ (smallBlock 5 0 14 0 0 0 false false).Legal ∧
    2 ≤ (smallBlock 5 0 14 0 0 0 false false).k ∧
    ∀ v ∈ [0, 1, 14], (smallBlock 5 0 v 0 0 0 false false).validMersenne 0 = true := by
  unfold Block.Ready Block.Legal; decide

/-! ## Witnesses: what an event changes -/

/-- B0 the same in use, everything else different; the two products are the same in use. -/
theorem witness_CommandsReadOnlyTheirOperands :
    (smallBlock 8 1 3 0 0 5 false false).Legal ∧
    (smallBlock 8 1 3 0 0 5 false false).kexp = (smallBlock 8 2 3 9 9 6 false true).kexp ∧
    (smallBlock 8 1 3 0 0 5 false false).SameOperand (smallBlock 8 2 3 9 9 6 false true) 0 ∧
    (smallBlock 8 1 3 0 0 5 false false).err = (smallBlock 8 2 3 9 9 6 false true).err ∧
    exec (.fmul 1 0 0) (offering (smallBlock 8 1 3 0 0 5 false false) []) =
      .next ⟨small, smallBlock 8 1 3 0 0 9 false false, [], none⟩ ∧
    exec (.fmul 1 0 0) (offering (smallBlock 8 2 3 9 9 6 false true) []) =
      .next ⟨small, smallBlock 8 2 3 9 9 9 false false, [], none⟩ :=
  ⟨by unfold Block.Legal; decide, by decide, by unfold Block.SameOperand; decide, rfl, rfl, rfl⟩

/-- LDS B0 with one limb in use: the next limb's address and KEXP's meet the hypotheses. -/
theorem witness_CommandsLeaveOtherAddresses :
    exec (.lds 0) (offering (smallBlock 8 5 1 2 3 0 true false) []) =
      .next ⟨small, smallBlock 8 5 5 2 3 0 false false, [], none⟩ ∧
    (∀ a ∈ [1, 9], a ≠ 5 ∧ a ≠ 6 ∧ ∀ k : Nat, k < 1 → a ≠ 8 + (destOf (.lds 0)).val * small.nmax + k) := by
  refine ⟨rfl, ?_⟩
  intro a ha
  refine ⟨?_, ?_, ?_⟩
  all_goals simp [destOf] at ha ⊢; omega

/-- A limb changed by a command and by a bus write. -/
theorem witness_LimbWriters :
    step (offering (smallBlock 8 5 1 2 3 0 true false) [.write 4 0x0001#16]) =
      .next ⟨small, smallBlock 8 5 5 2 3 0 false false, [], some .done⟩ ∧
    step (offering (smallBlock 8 5 1 2 3 0 true false) [.write 9 7#16]) =
      .next ⟨small, smallBlock 8 5 1 7 3 0 true false, [], some .done⟩ ∧
    (smallBlock 8 5 5 2 3 0 false false).limb 0 (0 : Fin 4) ≠ (smallBlock 8 5 1 2 3 0 true false).limb 0 (0 : Fin 4) :=
  ⟨rfl, rfl, by decide⟩

/-- A flag changed by LDS and by a write to FLAGS. -/
theorem witness_SignFlagWriters :
    step (offering (smallBlock 8 5 1 2 3 0 true false) [.write 4 0x0001#16]) =
      .next ⟨small, smallBlock 8 5 5 2 3 0 false false, [], some .done⟩ ∧
    step (offering (smallBlock 8 5 1 2 3 0 true false) [.write 6 0x0002#16]) =
      .next ⟨small, smallBlock 8 5 1 2 3 0 false true, [], some .done⟩ ∧
    (smallBlock 8 5 5 2 3 0 false false).sf[0] ≠ (smallBlock 8 5 1 2 3 0 true false).sf[0] :=
  ⟨rfl, rfl, by decide⟩

/-- CF changed by SUBS. -/
theorem witness_CarryFlagWriters :
    step (offering (smallBlock 16 2 1 0 0 0 false false) [.write 4 0x0003#16]) =
      .next ⟨small, { smallBlock 16 2 0xFFFF 0 0 0 false false with cf := true }, [], some .done⟩ := rfl

/-- KEXP and VAL changed by writes to them. -/
theorem witness_KexpAndValWriters :
    step (offering (smallBlock 8 5 1 0 0 0 false false) [.write 1 64#16]) =
      .next ⟨small, smallBlock 64 5 1 0 0 0 false false, [], some .done⟩ ∧
    step (offering (smallBlock 8 5 1 0 0 0 false false) [.write 3 6#16]) =
      .next ⟨small, smallBlock 8 6 1 0 0 0 false false, [], some .done⟩ := ⟨rfl, rfl⟩

/-! ## Witnesses: reset, invariants, host sequences -/

/-- The five rows of the list. -/
theorem witness_ResetLeavesTheResetState :
    (0, 4) ∈ [(0, small.nmax), (2, 0), (4, 0), (5, 0), (6, 0)] ∧
    ∀ a ∈ [2, 4, 5, 6], (a, 0) ∈ [(0, small.nmax), (2, 0), (4, 0), (5, 0), (6, 0)] := by decide

/-- The largest legal KEXP, kept by a refused write. -/
theorem witness_StepKeepsKexpLegal :
    (offering (smallBlock 64 0 0 0 0 0 false false) [.write 1 65#16]).Legal ∧
    step (offering (smallBlock 64 0 0 0 0 0 false false) [.write 1 65#16]) =
      .next ⟨small, failed (smallBlock 64 0 0 0 0 0 false false) .alloc, [], some .done⟩ :=
  ⟨by unfold State.Legal Block.Legal; decide, rfl⟩

theorem witness_KexpZeroOnlyFromReset :
    (smallBlock 8 0 0 0 0 0 false false).kexp.toNat ≠ 0 ∧
    step (offering (smallBlock 8 0 0 0 0 0 false false) [.write 1 0#16]) =
      .next ⟨small, failed (smallBlock 8 0 0 0 0 0 false false) .invexp, [], some .done⟩ :=
  ⟨by decide, rfl⟩

/-- The exponents 0, 1, 64 and 65 fall under one clause each. -/
theorem witness_PrologueConfiguresTheExponent :
    (∀ k ∈ [0, 1, 64, 65], k < 2 ^ small.w) ∧ small.w * small.nmax < 65 ∧ 64 ≤ small.w * small.nmax := by decide

/-- K = 20: no borrow, a borrow, and the largest v. -/
theorem witness_MsubvSubtractsModulo :
    (smallBlock 20 0 1 0 0 0 false false).Ready ∧ (smallBlock 20 0 1 0 0 0 false false).Legal ∧
    2 ≤ (smallBlock 20 0 1 0 0 0 false false).k ∧ (smallBlock 20 0 1 0 0 0 false false).stored 0 < 2 ^ 20 - 1 ∧
    ∀ v ∈ [0, 1, 2, 0xFFFF], v ≤ 2 ^ 20 - 1 ∧ v < 2 ^ small.w := by
  unfold Block.Ready Block.Legal; decide

/-- The smallest and the largest exponent, each with the largest operands. -/
theorem witness_CrossCheckFermatAgrees :
    ∀ t ∈ [(1, 2, 2), (8, 0, 163), (64, 2 ^ 64, 2 ^ 64)],
      1 ≤ t.1 ∧ t.1 ≤ small.w * small.nmax ∧ t.2.1 ≤ 2 ^ t.1 ∧ t.2.2 ≤ 2 ^ t.1 := by decide

/-- The smallest and the largest exponent, each with the all-ones pattern. -/
theorem witness_CrossCheckMersenneAgrees :
    ∀ t ∈ [(1, 1, 1), (8, 71, 43), (64, 2 ^ 64 - 1, 2 ^ 64 - 1)],
      1 ≤ t.1 ∧ t.1 ≤ small.w * small.nmax ∧ t.2.1 ≤ 2 ^ t.1 - 1 ∧ t.2.2 ≤ 2 ^ t.1 - 1 := by decide

end Sys2Proof.Tests
end

section
/-! The statements about the architectural state: how each register operation, command and event treats each field of
the block, then the obligations of `10_state.md`. -/

namespace Sys2Proof.Machine

variable {p : Params}

/-! ## Register writes, field by field -/

/-- A write of KEXP touches KEXP and ERR only (`10_state.md` R26). -/
theorem Block.writeKexp_frame (b : Block p) (d : Word p.w) :
    b.writeKexp d = { b with kexp := (b.writeKexp d).kexp, err := (b.writeKexp d).err } := by
  rcases b.writeKexp_cases d with ⟨_, h⟩ | ⟨_, h⟩ | ⟨_, _, h⟩
  · rw [h, b.raise_eq]
  · rw [h, b.raise_eq]
  · rw [h]

@[simp] theorem Block.writeKexp_limbs (b : Block p) (d : Word p.w) : (b.writeKexp d).limbs = b.limbs := by
  rw [b.writeKexp_frame]
@[simp] theorem Block.writeKexp_sf (b : Block p) (d : Word p.w) : (b.writeKexp d).sf = b.sf := by
  rw [b.writeKexp_frame]
@[simp] theorem Block.writeKexp_val (b : Block p) (d : Word p.w) : (b.writeKexp d).val = b.val := by
  rw [b.writeKexp_frame]
@[simp] theorem Block.writeKexp_cf (b : Block p) (d : Word p.w) : (b.writeKexp d).cf = b.cf := by
  rw [b.writeKexp_frame]

/-- A refused write of KEXP leaves it, an accepted one stores a legal non-zero exponent (`10_state.md` R26). -/
theorem Block.writeKexp_kexp (b : Block p) (d : Word p.w) :
    (b.writeKexp d).kexp = b.kexp ∨ (d.toNat ≠ 0 ∧ d.toNat ≤ kmax p ∧ (b.writeKexp d).kexp = d) := by
  rcases b.writeKexp_cases d with ⟨_, h⟩ | ⟨_, h⟩ | ⟨h0, hmax, h⟩
  · exact .inl (by simp [h])
  · exact .inl (by simp [h])
  · exact .inr ⟨h0, hmax, by rw [h]⟩

/-- The first error wins over whatever a write of KEXP would raise (`60_exceptions.md` R196). -/
theorem Block.writeKexp_err_of_err (b : Block p) (d : Word p.w) (he : b.err ≠ .none) :
    (b.writeKexp d).err = b.err := by
  rcases b.writeKexp_cases d with ⟨_, h⟩ | ⟨_, h⟩ | ⟨_, _, h⟩
  · rw [h, b.raise_of_err _ he]
  · rw [h, b.raise_of_err _ he]
  · rw [h]

@[simp] theorem Block.writeStatus_limbs (b : Block p) (d : Word p.w) : (b.writeStatus d).limbs = b.limbs := by
  rw [b.writeStatus_eq]
@[simp] theorem Block.writeStatus_sf (b : Block p) (d : Word p.w) : (b.writeStatus d).sf = b.sf := by
  rw [b.writeStatus_eq]
@[simp] theorem Block.writeStatus_kexp (b : Block p) (d : Word p.w) : (b.writeStatus d).kexp = b.kexp := by
  rw [b.writeStatus_eq]
@[simp] theorem Block.writeStatus_val (b : Block p) (d : Word p.w) : (b.writeStatus d).val = b.val := by
  rw [b.writeStatus_eq]
@[simp] theorem Block.writeStatus_cf (b : Block p) (d : Word p.w) : (b.writeStatus d).cf = b.cf := by
  rw [b.writeStatus_eq]

/-- Only data bit 0 of a write to STATUS counts (`10_state.md` R30). -/
theorem Block.writeStatus_eq_ite_bit (b : Block p) (d : Word p.w) :
    b.writeStatus d = if d.getLsbD 0 then { b with err := .none } else b := by
  simp [Block.writeStatus, BitVec.getLsbD, Nat.testBit_zero]

@[simp] theorem Block.writeFlags_limbs (b : Block p) (d : Word p.w) : (b.writeFlags d).limbs = b.limbs := rfl
@[simp] theorem Block.writeFlags_kexp (b : Block p) (d : Word p.w) : (b.writeFlags d).kexp = b.kexp := rfl
@[simp] theorem Block.writeFlags_val (b : Block p) (d : Word p.w) : (b.writeFlags d).val = b.val := rfl
@[simp] theorem Block.writeFlags_err (b : Block p) (d : Word p.w) : (b.writeFlags d).err = b.err := rfl
@[simp] theorem Block.writeFlags_cf (b : Block p) (d : Word p.w) : (b.writeFlags d).cf = b.cf := rfl

/-- A write to FLAGS sets every sign flag to its data bit (`10_state.md` R31). -/
theorem Block.writeFlags_sf (b : Block p) (d : Word p.w) : ∀ j : Buf, (b.writeFlags d).sf[j] = d.getLsbD j.val
  | 0 | 1 | 2 | 3 => rfl

/-- A limb is read from the limbs only. -/
theorem Block.limb_eq_of_limbs {b c : Block p} (h : c.limbs = b.limbs) (j : Buf) (i : Fin p.nmax) :
    c.limb j i = b.limb j i := by simp only [Block.limb, h]

theorem Block.k_eq_of_kexp {b c : Block p} (h : b.kexp = c.kexp) : b.k = c.k := by simp only [Block.k, h]

theorem Block.n_eq_of_kexp {b c : Block p} (h : b.kexp = c.kexp) : b.n = c.n := by
  simp only [Block.n, Block.k_eq_of_kexp h]

/-! ## The register words -/

theorem ErrCode.code_le (c : ErrCode) : c.code ≤ 4 := by cases c <;> decide

/-- STATUS holds five bits (`10_state.md` R30), and every word is at least that wide. -/
theorem Block.statusWord_toNat (b : Block p) : b.statusWord.toNat = b.err.code + 16 * b.cf.toNat := by
  have hcode := b.err.code_le
  have hcf := b.cf.toNat_lt
  have hw := p.two_pow_16_le
  rw [Block.statusWord, BitVec.toNat_ofNat, Nat.mod_eq_of_lt (by omega)]

theorem Block.statusWord_cf (b : Block p) : b.statusWord.getLsbD 4 = b.cf := by
  have hcode := b.err.code_le
  have hbit : (b.err.code + 16 * b.cf.toNat) / 2 ^ 4 % 2 = b.cf.toNat := by
    have hcf := b.cf.toNat_lt
    omega
  rw [BitVec.getLsbD, b.statusWord_toNat, Nat.testBit_eq_decide_div_mod_eq, hbit]
  cases b.cf <;> rfl

/-- The number that four flags spell, SF[0] lowest (`10_state.md` R31). -/
theorem Block.flagsWord_toNat (b : Block p) : b.flagsWord.toNat =
    b.sf[0].toNat + 2 * b.sf[1].toNat + 4 * b.sf[2].toNat + 8 * b.sf[3].toNat := by
  have h0 := b.sf[0].toNat_lt
  have h1 := b.sf[1].toNat_lt
  have h2 := b.sf[2].toNat_lt
  have h3 := b.sf[3].toNat_lt
  have hw := p.two_pow_16_le
  rw [Block.flagsWord, BitVec.toNat_ofNat, Nat.mod_eq_of_lt (by omega)]

theorem Block.flagsWord_lt (b : Block p) : b.flagsWord.toNat < 2 ^ 4 := by
  have h0 := b.sf[0].toNat_lt
  have h1 := b.sf[1].toNat_lt
  have h2 := b.sf[2].toNat_lt
  have h3 := b.sf[3].toNat_lt
  rw [b.flagsWord_toNat]
  omega

/-- Bit i of the number that four bits spell. -/
theorem testBit_of_four_bits : ∀ x y z u : Bool,
    let m := x.toNat + 2 * y.toNat + 4 * z.toNat + 8 * u.toNat
    m.testBit 0 = x ∧ m.testBit 1 = y ∧ m.testBit 2 = z ∧ m.testBit 3 = u := by decide

theorem Block.flagsWord_bit (b : Block p) (j : Buf) : b.flagsWord.getLsbD j.val = b.sf[j] := by
  obtain ⟨h0, h1, h2, h3⟩ := testBit_of_four_bits b.sf[0] b.sf[1] b.sf[2] b.sf[3]
  rw [BitVec.getLsbD, b.flagsWord_toNat]
  match j with
  | 0 => exact h0
  | 1 => exact h1
  | 2 => exact h2
  | 3 => exact h3

/-- NLIMB reads exactly, whatever KEXP holds: n is at most K. -/
theorem Block.n_lt_two_pow (b : Block p) : b.n < 2 ^ p.w :=
  Nat.lt_of_le_of_lt ((limbCount_le_iff p.w_pos b.k b.k).mpr (Nat.le_mul_of_pos_left b.k p.w_pos)) b.kexp.isLt

/-- One limb less than n does not hold K bits (`00_scope.md` R9). -/
theorem Block.lt_k_of_pred_n (b : Block p) (h : b.k ≠ 0) : p.w * (b.n - 1) < b.k := by
  have hn := b.n_pos h
  have hleast := (limbCount_le_iff p.w_pos b.k (b.n - 1)).not.mp (by show ¬ b.n ≤ b.n - 1; omega)
  omega

@[simp] theorem Block.afterReset_n (fill : Limbs p) : (Block.afterReset fill).n = 0 := by
  rw [Block.n, Block.k, Block.afterReset_kexp, BitVec.toNat_ofNat, Nat.zero_mod, limbCount_zero p.w_pos]

@[simp] theorem Block.afterReset_flagsWord (fill : Limbs p) : (Block.afterReset fill).flagsWord = 0#p.w := by
  apply BitVec.eq_of_toNat_eq
  rw [Block.flagsWord_toNat]
  simp [Block.afterReset]

/-! ## Commands, field by field -/

@[simp] theorem Block.command_kexp (b : Block p) (i : Instr) :
    (b.gated (b.checked i) (b.effect i)).kexp = b.kexp := by
  obtain ⟨_, _, hkexp, _, _⟩ := b.effect_frame i
  rcases b.command_cases i with ⟨_, h⟩ | ⟨_, _, _, h⟩ | ⟨_, _, h⟩ <;> rw [h]
  exact hkexp

@[simp] theorem Block.command_val (b : Block p) (i : Instr) :
    (b.gated (b.checked i) (b.effect i)).val = b.val := by
  obtain ⟨_, _, _, hval, _⟩ := b.effect_frame i
  rcases b.command_cases i with ⟨_, h⟩ | ⟨_, _, _, h⟩ | ⟨_, _, h⟩ <;> rw [h]
  exact hval

/-- A recorded error drops a command (`60_exceptions.md` R197, line 1). -/
theorem Block.command_of_err (b : Block p) (i : Instr) (he : b.err ≠ .none) :
    b.gated (b.checked i) (b.effect i) = b := if_pos he

/-- Only LDS and FMUL have a flag effect, on their destination (`10_state.md` R23). -/
theorem Block.effect_sf_ne {b : Block p} {i : Instr} {j : Buf} (h : (b.effect i).sf[j] ≠ b.sf[j]) :
    i = .lds j ∨ ∃ ra rb, i = .fmul j ra rb := by
  obtain ⟨_, hother, _⟩ := b.effect_frame i
  obtain rfl : j = destOf i := Decidable.byContradiction fun hj => h (hother j hj)
  cases i with
  | lds rd => exact .inl rfl
  | fmul rd ra rb => exact .inr ⟨ra, rb, rfl⟩
  | adds rd => exact absurd rfl h
  | subs rd => exact absurd rfl h
  | mmul rd ra rb => exact absurd rfl h

/-- Only ADDS and SUBS have a carry effect (`10_state.md` R29). -/
theorem Block.effect_cf_ne {b : Block p} {i : Instr} (h : (b.effect i).cf ≠ b.cf) :
    ∃ rd, i = .adds rd ∨ i = .subs rd := by
  cases i with
  | adds rd => exact ⟨rd, .inl rfl⟩
  | subs rd => exact ⟨rd, .inr rfl⟩
  | lds rd => exact absurd rfl h
  | mmul rd ra rb => exact absurd rfl h
  | fmul rd ra rb =>
    obtain ⟨_, _, _, _, _, _, hcf⟩ := b.storeFermat_frame rd (b.trueValue ra * b.trueValue rb % (2 ^ b.k + 1))
    exact absurd hcf h

/-- A field of the block other than ERR that a command changes is changed by its effect, and the command is
performed. -/
theorem Block.performed_of_field_ne {α : Type} {b : Block p} {i : Instr} (field : Block p → α)
    (herr : ∀ c, field { b with err := c } = field b)
    (h : field (b.gated (b.checked i) (b.effect i)) ≠ field b) :
    b.Ready ∧ b.OperandsValid i ∧ field (b.effect i) ≠ field b := by
  rcases b.command_cases i with ⟨_, e⟩ | ⟨_, c, _, e⟩ | ⟨hr, hv, e⟩ <;> rw [e] at h
  · exact absurd rfl h
  · exact absurd (herr c) h
  · exact ⟨hr, hv, h⟩

/-- A limb that an effect changes is a limb in use of the destination (`10_state.md` R22). -/
theorem Block.effect_limb_ne {b : Block p} {i : Instr} {j : Buf} {m : Fin p.nmax}
    (h : (b.effect i).limb j m ≠ b.limb j m) : destOf i = j ∧ m.val < b.n := by
  obtain ⟨⟨hother, habove⟩, _⟩ := b.effect_frame i
  obtain rfl : destOf i = j := Decidable.byContradiction fun hj =>
    h (by rw [Block.limb, hother j (Ne.symm hj), Block.limb])
  exact ⟨rfl, Nat.lt_of_not_le fun hm => h (habove m hm)⟩

/-- A limb that a command changes is a limb in use of the destination, and the command is performed. -/
theorem Block.command_limb_ne {b : Block p} {i : Instr} {j : Buf} {m : Fin p.nmax}
    (h : (b.gated (b.checked i) (b.effect i)).limb j m ≠ b.limb j m) :
    b.Ready ∧ b.OperandsValid i ∧ destOf i = j ∧ m.val < b.n := by
  obtain ⟨hr, hv, hne⟩ := Block.performed_of_field_ne (fun c => c.limb j m) (fun _ => rfl) h
  exact ⟨hr, hv, Block.effect_limb_ne hne⟩

/-! ## One event -/

/-- A read at a target's own address. -/
theorem read_addr (b : Block p) (t : Target p) : b.read t.addr = .data (b.readTarget t) :=
  read_of_target b (target_addr t)

/-- What one event may make of the block: `step_event_cases` with a name for each case. -/
inductive BlockStep (b : Block p) : Event p → Block p → Prop
  /-- a read, bus error or not -/
  | read (a : Nat) : BlockStep b (.read a) b
  /-- the reset line -/
  | reset (fill : Limbs p) : BlockStep b (.reset fill) (Block.afterReset fill)
  /-- a write that ends in a bus error -/
  | busError (a : Nat) (d : Word p.w) (ha : a ≠ 4) : BlockStep b (.write a d) b
  /-- the checked write of KEXP -/
  | kexp (d : Word p.w) : BlockStep b (.write 1 d) (b.writeKexp d)
  /-- a write of VAL -/
  | val (d : Word p.w) : BlockStep b (.write 3 d) { b with val := d }
  /-- a write to STATUS -/
  | status (d : Word p.w) : BlockStep b (.write 5 d) (b.writeStatus d)
  /-- a write to FLAGS -/
  | flags (d : Word p.w) : BlockStep b (.write 6 d) (b.writeFlags d)
  /-- a write of a limb -/
  | limb (j : Buf) (i : Fin p.nmax) (d : Word p.w) :
    BlockStep b (.write (8 + j.val * p.nmax + i.val) d) (b.setLimb j i d)
  /-- a write to CMD of a word that is no command -/
  | illegal (d : Word p.w) (x : Illegal) (hd : decode d = .error x) : BlockStep b (.write 4 d) (b.raise .illcmd)
  /-- a write to CMD of a command, performed or not -/
  | command (d : Word p.w) (i : Instr) (hd : decode d = .ok i) :
    BlockStep b (.write 4 d) (b.gated (b.checked i) (b.effect i))

/-- A step does to the block what `BlockStep` says. -/
theorem blockStep_of_step {b b' : Block p} {evs : List (Event p)} {r r' : Option (Reply p)} {e : Event p}
    (h : step ⟨p, b, e :: evs, r⟩ = .next ⟨p, b', evs, r'⟩) : BlockStep b e b' := by
  rcases step_event_cases h with ⟨a, rfl, rfl⟩ | ⟨fill, rfl, rfl⟩ | ⟨a, d, rfl, ha, rfl⟩ | ⟨d, rfl, rfl⟩ |
    ⟨d, rfl, rfl⟩ | ⟨d, rfl, rfl⟩ | ⟨d, rfl, rfl⟩ | ⟨j, i, d, rfl, rfl⟩ | ⟨d, rfl, ⟨x, hd⟩, rfl⟩ |
    ⟨d, i, rfl, hd, rfl⟩
  · exact .read a
  · exact .reset fill
  · exact .busError a d ha
  · exact .kexp d
  · exact .val d
  · exact .status d
  · exact .flags d
  · exact .limb j i d
  · exact .illegal d x hd
  · exact .command d i hd

/-- A bus write is answered, by a block and a reply that what is pending and what was answered before play no part
in. -/
theorem busWrite_next (b : Block p) (a : Nat) (d : Word p.w) : ∃ (b' : Block p) (r' : Option (Reply p)),
    ∀ evs r, busWrite ⟨p, b, evs, r⟩ a d = .next ⟨p, b', evs, r'⟩ := by
  cases ht : target p a with
  | none => exact ⟨_, _, fun evs r => busWrite_of_none b evs r d ht⟩
  | some t =>
    cases t with
    | cmd =>
      cases hd : decode d with
      | error x =>
        refine ⟨b.raise .illcmd, some .done, fun evs r => ?_⟩
        rw [busWrite_of_target b evs r d ht, issueCommand_error b evs r hd, completed_next, State.withReply_mk]
      | ok i =>
        refine ⟨b.gated (b.checked i) (b.effect i), some .done, fun evs r => ?_⟩
        rw [busWrite_of_target b evs r d ht, issueCommand_ok b evs r hd, exec_eq, completed_next, State.withReply_mk]
    | _ => exact ⟨_, _, fun evs r => busWrite_of_target b evs r d ht⟩

/-- The same for every event. -/
theorem step_cons_next (b : Block p) (e : Event p) : ∃ (b' : Block p) (r' : Option (Reply p)),
    ∀ evs r, step ⟨p, b, e :: evs, r⟩ = .next ⟨p, b', evs, r'⟩ := by
  cases e with
  | read a => exact ⟨b, some (b.read a), fun _ _ => rfl⟩
  | write a d => exact busWrite_next b a d
  | reset fill => exact ⟨Block.afterReset fill, none, fun _ _ => rfl⟩

/-! ## What an event changes (tier 3) -/

/-- KEXP changes only by reset and by an accepted write (`10_state.md` R26). -/
theorem BlockStep.kexp_writer {b b' : Block p} {e : Event p} (h : BlockStep b e b') (hne : b'.kexp ≠ b.kexp) :
    (∃ fill, e = .reset fill ∧ b' = Block.afterReset fill) ∨
    ∃ d, e = .write 1 d ∧ d.toNat ≠ 0 ∧ d.toNat ≤ kmax p ∧ b'.kexp = d := by
  cases h with
  | reset fill => exact .inl ⟨fill, rfl, rfl⟩
  | kexp d =>
    rcases b.writeKexp_kexp d with hk | ⟨h0, hmax, hk⟩
    · exact absurd hk hne
    · exact .inr ⟨d, rfl, h0, hmax, hk⟩
  | _ => exact absurd (by simp) hne

/-- Every event keeps KEXP legal: what changes KEXP stores 0 or a checked exponent. -/
theorem BlockStep.legal {b b' : Block p} {e : Event p} (h : BlockStep b e b') (hl : b.Legal) : b'.Legal := by
  by_cases hk : b'.kexp = b.kexp
  · rwa [Block.Legal, Block.k_eq_of_kexp hk]
  · rcases h.kexp_writer hk with ⟨fill, _, rfl⟩ | ⟨d, _, _, hmax, hd⟩
    · simp [Block.Legal, Block.k]
    · rwa [Block.Legal, Block.k, hd]

/-- Settles O50: the idle step changes nothing, and every event keeps KEXP legal. -/
theorem stepKeepsKexpLegal : Obligations.StepKeepsKexpLegal := by
  rintro ⟨p, b, evs, r⟩ t hl h
  cases evs with
  | nil =>
    rw [step_nil _ rfl] at h
    cases h
    exact ⟨hl, rfl⟩
  | cons e evs =>
    obtain ⟨b', r', hnext⟩ := step_cons_next b e
    have hstep := hnext evs r
    rw [hstep] at h
    cases h
    exact ⟨(blockStep_of_step hstep).legal hl, rfl⟩

/-- Settles O44: only reset, the limb's own address and a performed command's effect touch a limb. -/
theorem limbWriters : Obligations.LimbWriters := by
  intro p b b' evs r r' e j i h hne
  cases blockStep_of_step h with
  | reset fill => exact .inl ⟨fill, rfl⟩
  | limb j' i' d =>
    by_cases hw : (j, i) = (j', i')
    · cases hw
      exact .inr (.inl ⟨d, rfl⟩)
    · exact absurd (b.limb_setLimb_ne d hw) hne
  | command d c hd =>
    obtain ⟨hr, hv, hdest, hi⟩ := Block.command_limb_ne hne
    exact .inr (.inr ⟨d, c, rfl, hd, hr, hv, hdest, hi⟩)
  | _ => exact absurd (Block.limb_eq_of_limbs (by simp) j i) hne

/-! ## What an event changes (tier 2) -/

/-- Settles O6: by the kind of event. -/
theorem eventEffectIsAFunctionOfBlockAndEvent : Obligations.EventEffectIsAFunctionOfBlockAndEvent :=
  fun _ b e => step_cons_next b e

/-- Settles O45: the writers of a flag are reset, FLAGS and the effects of LDS and FMUL. -/
theorem signFlagWriters : Obligations.SignFlagWriters := by
  intro p b b' evs r r' e j h hne
  cases blockStep_of_step h with
  | reset fill => exact .inl ⟨fill, rfl⟩
  | flags d => exact .inr (.inl ⟨d, rfl⟩)
  | command d c hd =>
    obtain ⟨hr, hv, heff⟩ := Block.performed_of_field_ne (fun c => c.sf[j]) (fun _ => rfl) hne
    exact .inr (.inr ⟨d, c, rfl, hd, hr, hv, Block.effect_sf_ne heff⟩)
  | _ => exact absurd (by simp) hne

/-- Settles O46: the writers of CF are reset and the effects of ADDS and SUBS. -/
theorem carryFlagWriters : Obligations.CarryFlagWriters := by
  intro p b b' evs r r' e h hne
  cases blockStep_of_step h with
  | reset fill => exact .inl ⟨fill, rfl⟩
  | command d c hd =>
    obtain ⟨hr, _, heff⟩ := Block.performed_of_field_ne Block.cf (fun _ => rfl) hne
    obtain ⟨rd, rfl | rfl⟩ := Block.effect_cf_ne heff
    · exact .inr ⟨d, rd, rfl, hr, .inl hd⟩
    · exact .inr ⟨d, rd, rfl, hr, .inr hd⟩
  | _ => exact absurd (by simp) hne

/-- VAL changes only by reset and by a write to it (`10_state.md` R27). -/
theorem BlockStep.val_writer {b b' : Block p} {e : Event p} (h : BlockStep b e b') (hne : b'.val ≠ b.val) :
    (∃ fill, e = .reset fill) ∨ ∃ d, e = .write 3 d ∧ b'.val = d := by
  cases h with
  | reset fill => exact .inl ⟨fill, rfl⟩
  | val d => exact .inr ⟨d, rfl, rfl⟩
  | _ => exact absurd (by simp) hne

/-- Settles O47, from the writers of KEXP and of VAL. -/
theorem kexpAndValWriters : Obligations.KexpAndValWriters := by
  intro p b b' evs r r' e h
  have hstep := blockStep_of_step h
  refine ⟨fun hne => ?_, hstep.val_writer⟩
  rcases hstep.kexp_writer hne with ⟨fill, he, _⟩ | ⟨d, he, h0, hmax, hd⟩
  · exact .inl ⟨fill, he⟩
  · exact .inr ⟨d, he, Nat.pos_of_ne_zero h0, hmax, hd⟩

/-- Settles O51: a write that changes KEXP stores a non-zero exponent. -/
theorem kexpZeroOnlyFromReset : Obligations.KexpZeroOnlyFromReset := by
  intro p b b' evs r r' e h0 hreset h
  by_cases hk : b'.kexp = b.kexp
  · rwa [hk]
  · rcases (blockStep_of_step h).kexp_writer hk with ⟨fill, he, _⟩ | ⟨d, _, hd0, _, hd⟩
    · exact absurd he (hreset fill)
    · rwa [hd]

/-- An error stays over every event but reset and a clearing write to STATUS (`10_state.md` R28). -/
theorem BlockStep.err_sticky {b b' : Block p} {e : Event p} (h : BlockStep b e b') (he : b.err ≠ .none)
    (hreset : ∀ fill, e ≠ .reset fill) (hclear : ∀ d : Word p.w, e = .write 5 d → d.getLsbD 0 = false) :
    b'.err = b.err := by
  cases h with
  | reset fill => exact absurd rfl (hreset fill)
  | kexp d => exact b.writeKexp_err_of_err d he
  | status d => rw [b.writeStatus_eq_ite_bit, hclear d rfl]; rfl
  | illegal d x hd => rw [b.raise_of_err _ he]
  | command d i hd => rw [b.command_of_err i he]
  | _ => rfl

/-- While an error stands a write to CMD changes nothing (`60_exceptions.md` R197, line 1). -/
theorem BlockStep.cmd_dropped {b b' : Block p} {d : Word p.w} (h : BlockStep b (.write 4 d) b')
    (he : b.err ≠ .none) : b' = b := by
  generalize hev : Event.write 4 d = e at h
  cases h with
  | busError a d' ha => rfl
  | illegal d' x hd => exact b.raise_of_err _ he
  | command d' i hd => exact b.command_of_err i he
  | limb j i d' =>
    injection hev with ha
    omega
  | _ => cases hev

/-- Settles O20: the error is sticky over every event, and a write to CMD stops at line 1 of the gate. -/
theorem errorIsStickyAndDropsCommands : Obligations.ErrorIsStickyAndDropsCommands := by
  intro p b b' evs r r' e he hreset hclear h
  have hstep := blockStep_of_step h
  refine ⟨hstep.err_sticky he hreset hclear, ?_⟩
  rintro d rfl
  exact hstep.cmd_dropped he

/-- Settles O48: the block is `Block.afterReset fill`, and each register is read by its address. -/
theorem resetLeavesTheResetState : Obligations.ResetLeavesTheResetState := by
  intro p b evs r fill
  refine ⟨Block.afterReset fill, none, rfl, ?_, ?_, rfl, rfl, Block.afterReset_sf fill, rfl, fun a v hav => ?_⟩
  · simp
  · simp
  · have hread : (Block.afterReset fill).read a = .data (BitVec.ofNat p.w v) := by
      simp only [List.mem_cons, Prod.mk.injEq, List.not_mem_nil, or_false] at hav
      rcases hav with ⟨rfl, rfl⟩ | ⟨rfl, rfl⟩ | ⟨rfl, rfl⟩ | ⟨rfl, rfl⟩ | ⟨rfl, rfl⟩
      · exact read_addr _ .cap
      · exact (read_addr _ .nlimb).trans (by rw [Block.readTarget, Block.afterReset_n])
      · exact read_addr _ .cmd
      · exact read_addr _ .status
      · exact (read_addr _ .flags).trans (by rw [Block.readTarget, Block.afterReset_flagsWord])
    rw [step_read, hread, Reply.data]

/-! ## Registers (tier 2) -/

/-- Settles O13: the code is below 16, so CF is bit 4 alone. -/
theorem statusRegisterReadsAndClears : Obligations.StatusRegisterReadsAndClears := by
  intro p b evs r
  have hcode := b.err.code_le
  have hcf := b.cf.toNat_lt
  refine ⟨⟨b.statusWord, rfl, ?_, b.statusWord_cf, ?_⟩, fun d => ⟨.done, rfl, ?_⟩⟩
  · rw [b.statusWord_toNat]; omega
  · rw [b.statusWord_toNat]; omega
  · rw [← b.writeStatus_eq_ite_bit]
    exact busWrite_of_target b evs r d (target_addr .status)

/-- Settles O14, bit by bit. -/
theorem flagsRegisterReadsAndWrites : Obligations.FlagsRegisterReadsAndWrites := by
  intro p b evs r
  exact ⟨⟨b.flagsWord, rfl, b.flagsWord_bit, b.flagsWord_lt⟩, fun d =>
    ⟨b.writeFlags d, .done, rfl, busWrite_of_target b evs r d (target_addr .flags), b.writeFlags_sf d, rfl⟩⟩

/-- Settles O15: n < 2^W makes NLIMB exact, and n is the least limb count that holds K bits. -/
theorem capAndNlimbAreReadOnlyViews : Obligations.CapAndNlimbAreReadOnlyViews := by
  intro p b evs r d
  have hcap : (BitVec.ofNat p.w p.nmax).toNat = p.nmax := by
    rw [BitVec.toNat_ofNat, Nat.mod_eq_of_lt p.nmax_lt]
  have hn : (BitVec.ofNat p.w b.n).toNat = b.n := by
    rw [BitVec.toNat_ofNat, Nat.mod_eq_of_lt b.n_lt_two_pow]
  have hzero (h : b.k = 0) : b.n = 0 := by rw [Block.n, h, limbCount_zero p.w_pos]
  refine ⟨⟨_, hcap, rfl⟩, ⟨BitVec.ofNat p.w b.n, ?_, ?_, ?_, rfl⟩, ⟨.writeError, rfl, ?_⟩, ⟨.writeError, rfl, ?_⟩⟩
  · rw [hn]; exact b.k_le
  · rw [hn]; exact b.lt_k_of_pred_n
  · rw [hn]; exact hzero
  · exact busWrite_of_target b evs r d (target_addr .cap)
  · exact busWrite_of_target b evs r d (target_addr .nlimb)

/-! ## Noninterference (tier 2) -/

/-- What a command reads besides KEXP and ERR is the same in both blocks. -/
def Block.SameReads (b c : Block p) : Instr → Prop
  | .lds _ => b.val = c.val
  | .adds rd => b.val = c.val ∧ b.inUse rd = c.inUse rd
  | .subs rd => b.val = c.val ∧ b.inUse rd = c.inUse rd
  | .fmul _ ra rb => b.SameOperand c ra ∧ b.SameOperand c rb
  | .mmul _ ra rb => b.inUse ra = c.inUse ra ∧ b.inUse rb = c.inUse rb

/-- The flag that a command computes is the same in both blocks. -/
def Block.SameFlag (b c : Block p) : Instr → Prop
  | .lds rd => b.sf[rd] = c.sf[rd]
  | .adds _ => b.cf = c.cf
  | .subs _ => b.cf = c.cf
  | .fmul rd _ _ => b.sf[rd] = c.sf[rd]
  | .mmul _ _ _ => True

theorem Block.stored_eq_of_inUse {b c : Block p} {j : Buf} (h : b.inUse j = c.inUse j) :
    b.stored j = c.stored j := by simp only [Block.stored, h]

theorem Block.trueValue_eq_of_sameOperand {b c : Block p} {j : Buf} (hk : b.k = c.k) (h : b.SameOperand c j) :
    b.trueValue j = c.trueValue j := by
  obtain ⟨hlimbs, hflag⟩ := h
  simp only [Block.trueValue, Block.stored_eq_of_inUse hlimbs, hflag, hk]

theorem Block.validFermat_eq_of_sameOperand {b c : Block p} {j : Buf} (hk : b.k = c.k) (h : b.SameOperand c j) :
    b.validFermat j = c.validFermat j := by
  obtain ⟨hlimbs, hflag⟩ := h
  simp only [Block.validFermat, Block.stored_eq_of_inUse hlimbs, hflag, hk]

theorem Block.validMersenne_eq_of_inUse {b c : Block p} {j : Buf} (hk : b.k = c.k) (h : b.inUse j = c.inUse j) :
    b.validMersenne j = c.validMersenne j := by
  simp only [Block.validMersenne, Block.stored_eq_of_inUse h, hk]

theorem Block.boundary_eq_of_kexp {b c : Block p} (hk : b.kexp = c.kexp) : b.boundary = c.boundary := by
  simp only [Block.boundary, Block.n_eq_of_kexp hk]

/-- The operand check looks at nothing but what the command reads. -/
theorem Block.checked_eq_of_sameReads {b c : Block p} {i : Instr} (hk : b.k = c.k) (h : b.SameReads c i) :
    b.checked i = c.checked i := by
  cases i with
  | lds rd => rfl
  | adds rd => rfl
  | subs rd => rfl
  | fmul rd ra rb =>
    obtain ⟨ha, hb⟩ := h
    simp only [Block.checked, Block.validFermat_eq_of_sameOperand hk ha, Block.validFermat_eq_of_sameOperand hk hb]
  | mmul rd ra rb =>
    obtain ⟨ha, hb⟩ := h
    simp only [Block.checked, Block.validMersenne_eq_of_inUse hk ha, Block.validMersenne_eq_of_inUse hk hb]

/-- The limbs in use after a store depend on KEXP and on the integer stored. -/
theorem Block.store_inUse_eq_of_kexp {b c : Block p} (hl : b.Legal) (hk : b.kexp = c.kexp) (rd : Buf) {u v : Nat}
    (h : u = v) : (b.store rd u).inUse rd = (c.store rd v).inUse rd := by
  have hn := b.n_le hl
  rw [b.store_inUse rd u hn, c.store_inUse rd v (Block.n_eq_of_kexp hk ▸ hn), Block.n_eq_of_kexp hk, h]

/-- Writing a Fermat result leaves limbs in use and a flag that depend on KEXP and on the result. -/
theorem Block.storeFermat_eq_of_kexp {b c : Block p} (hl : b.Legal) (hk : b.kexp = c.kexp) (rd : Buf) (z : Nat) :
    (b.storeFermat rd z).inUse rd = (c.storeFermat rd z).inUse rd ∧
    (b.storeFermat rd z).sf[rd] = (c.storeFermat rd z).sf[rd] := by
  unfold Block.storeFermat
  rw [← Block.k_eq_of_kexp hk]
  split
  all_goals
    simp only [Block.setFlag_inUse, Block.setFlag_sf_self, and_true]
    exact Block.store_inUse_eq_of_kexp hl hk rd rfl

/-- The effect of a command depends on KEXP and on what the command reads. -/
theorem Block.effect_agree {b c : Block p} {i : Instr} (hl : b.Legal) (hk : b.kexp = c.kexp) (h : b.SameReads c i) :
    (b.effect i).inUse (destOf i) = (c.effect i).inUse (destOf i) ∧ (b.effect i).SameFlag (c.effect i) i := by
  have hbound := Block.boundary_eq_of_kexp hk
  have hexp := Block.k_eq_of_kexp hk
  cases i with
  | lds rd =>
    have hval : b.val = c.val := h
    refine ⟨Block.store_inUse_eq_of_kexp hl hk rd (by rw [hval]), ?_⟩
    exact (Block.setFlag_sf_self _ rd false).trans (Block.setFlag_sf_self _ rd false).symm
  | adds rd =>
    obtain ⟨hval, hlimbs⟩ := h
    have hsum : b.stored rd + b.val.toNat = c.stored rd + c.val.toNat := by
      rw [Block.stored_eq_of_inUse hlimbs, hval]
    refine ⟨Block.store_inUse_eq_of_kexp hl hk rd (by rw [hsum, hbound]), ?_⟩
    simp only [Block.SameFlag, Block.effect, Block.addSmall_cf, Block.carryOut, hsum, hbound]
  | subs rd =>
    obtain ⟨hval, hlimbs⟩ := h
    have hdiff : (b.stored rd : Int) - b.val.toNat = (c.stored rd : Int) - c.val.toNat := by
      rw [Block.stored_eq_of_inUse hlimbs, hval]
    refine ⟨Block.store_inUse_eq_of_kexp hl hk rd (by rw [hdiff, hbound]), ?_⟩
    simp only [Block.SameFlag, Block.effect, Block.subSmall_cf, hdiff]
  | fmul rd ra rb =>
    obtain ⟨ha, hb⟩ := h
    simp only [Block.effect, Block.fermatMul, Block.SameFlag, destOf, hexp,
      Block.trueValue_eq_of_sameOperand hexp ha, Block.trueValue_eq_of_sameOperand hexp hb]
    exact Block.storeFermat_eq_of_kexp hl hk rd _
  | mmul rd ra rb =>
    obtain ⟨ha, hb⟩ := h
    refine ⟨Block.store_inUse_eq_of_kexp hl hk rd ?_, trivial⟩
    rw [Block.stored_eq_of_inUse ha, Block.stored_eq_of_inUse hb, hexp]

/-- Two gates that see the same KEXP, ERR and operand check do the same: both drop or refuse the command with one
error, or both perform it. -/
theorem Block.gated_agree {b c x y : Block p} (v : Bool) (hk : b.k = c.k) (he : b.err = c.err) (hx : x.err = b.err)
    (hy : y.err = c.err) :
    (b.gated v x).err = (c.gated v y).err ∧
    ((b.gated v x).err = .none → b.gated v x = x ∧ c.gated v y = y) := by
  by_cases hb : b.err = .none
  · by_cases hk0 : b.k = 0 <;> cases v <;>
      simp [Block.gated, Block.raise, ← he, ← hk, hb, hk0, hx, hy]
  · simp [Block.gated, ← he, hb]

/-- Settles O42: the gates agree, and so do the effects. -/
theorem commandsReadOnlyTheirOperands : Obligations.CommandsReadOnlyTheirOperands := by
  intro p b c b' c' evs r i hl hk he hreads hb hc
  have hreads : b.SameReads c i := by cases i <;> exact hreads
  have hexp := Block.k_eq_of_kexp hk
  rw [exec_eq] at hb hc
  obtain ⟨_, _, _, _, hberr⟩ := b.effect_frame i
  obtain ⟨_, _, _, _, hcerr⟩ := c.effect_frame i
  obtain ⟨herr, hperf⟩ := Block.gated_agree (b.checked i) hexp he hberr hcerr
  rw [block_eq_of_next hb, block_eq_of_next hc, ← Block.checked_eq_of_sameReads hexp hreads]
  refine ⟨herr, fun hnone => ?_⟩
  obtain ⟨hbeff, hceff⟩ := hperf hnone
  rw [hbeff, hceff]
  obtain ⟨hlimbs, hflag⟩ := Block.effect_agree hl hk hreads
  refine ⟨hlimbs, ?_⟩
  cases i <;> exact hflag

/-- A command changes what an address reads as only at STATUS, at FLAGS and at the limbs in use of its destination
(`10_state.md` R22). -/
theorem Block.command_read (b : Block p) (i : Instr) {a : Nat} (h5 : a ≠ 5) (h6 : a ≠ 6)
    (hdest : ∀ k : Nat, k < b.n → k < p.nmax → a ≠ 8 + (destOf i).val * p.nmax + k) :
    (b.gated (b.checked i) (b.effect i)).read a = b.read a := by
  cases ht : target p a with
  | none => rw [read_of_none _ ht, read_of_none _ ht]
  | some t =>
    have ha := addr_of_target ht
    rw [read_of_target _ ht, read_of_target _ ht]
    congr 1
    cases t with
    | cap => rfl
    | kexp => exact b.command_kexp i
    | nlimb => rw [Block.readTarget, Block.readTarget, Block.n_eq_of_kexp (b.command_kexp i)]
    | val => exact b.command_val i
    | cmd => rfl
    | status => exact absurd ha h5
    | flags => exact absurd ha h6
    | limb j m =>
      by_contra hne
      obtain ⟨_, _, rfl, hm⟩ := Block.command_limb_ne hne
      exact hdest m hm m.isLt ha

/-- Settles O43: reads change no block, and the command changes no other read. -/
theorem commandsLeaveOtherAddresses : Obligations.CommandsLeaveOtherAddresses := by
  intro p b b' evs r i a h h5 h6 hdest evs' r₁ r₂
  rw [exec_eq] at h
  refine ⟨b.read a, step_read b evs' r₁ a, ?_⟩
  rw [block_eq_of_next h, step_read, b.command_read i h5 h6 hdest]

/-! ## Tier 1 -/

/-- Settles O5: address 4 is CMD, and a legal word is issued to `exec`. -/
theorem stepRunsTheDecodedCommand : Obligations.StepRunsTheDecodedCommand := by
  intro p b evs r d i hd
  rw [← issueCommand_ok b evs r hd]
  exact busWrite_of_target b evs r d (target_addr .cmd)

/-- Settles O12: address 3 is VAL, and no command writes it. -/
theorem valRegisterReadsAndWrites : Obligations.ValRegisterReadsAndWrites := by
  intro p b evs r v
  exact ⟨rfl, ⟨.done, rfl, busWrite_of_target b evs r v (target_addr .val)⟩,
    fun i => ⟨_, exec_eq i b evs r, b.command_val i⟩, rfl⟩

/-- Settles O49, field by field. -/
theorem resetStateIsLegal : Obligations.ResetStateIsLegal :=
  ⟨Nat.zero_le _, rfl, rfl, rfl, rfl, Block.afterReset_sf _⟩

end Sys2Proof.Machine
end

section
/-! The statements about the bus: what a read returns at a mapped and at an unmapped address, that a limb write touches
one limb, and that a repeated write does nothing more, then the obligations of `20_memory.md`. -/

namespace Sys2Proof.Machine

variable {p : Params}

/-! ## One transaction, by what its address names -/

/-- A read at a target's own address returns the target's word and keeps the block (`20_memory.md` R55). -/
theorem step_read_addr (b : Block p) (evs : List (Event p)) (r : Option (Reply p)) (t : Target p) :
    step ⟨p, b, .read t.addr :: evs, r⟩ = .next ⟨p, b, evs, some (.data (b.readTarget t))⟩ := by
  rw [step_read, read_addr]

/-- A read of an unmapped address is a bus error (`20_memory.md` R58). -/
theorem step_read_unmapped (b : Block p) (evs : List (Event p)) (r : Option (Reply p)) {a : Nat}
    (h : a = 7 ∨ 8 + 4 * p.nmax ≤ a) :
    step ⟨p, b, .read a :: evs, r⟩ = .next ⟨p, b, evs, some .readError⟩ := by
  rw [step_read, read_of_none b (target_none h)]

/-- A write to an unmapped address is a bus error (`20_memory.md` R58). -/
theorem step_write_unmapped (b : Block p) (evs : List (Event p)) (r : Option (Reply p)) {a : Nat} (d : Word p.w)
    (h : a = 7 ∨ 8 + 4 * p.nmax ≤ a) :
    step ⟨p, b, .write a d :: evs, r⟩ = .next ⟨p, b, evs, some .writeError⟩ :=
  busWrite_of_none b evs r d (target_none h)

/-! ## Repeated writes -/

/-- Raising one error twice is raising it once (`60_exceptions.md` R196). -/
theorem Block.raise_idem (b : Block p) (c : ErrCode) : (b.raise c).raise c = b.raise c := by
  by_cases he : b.err = .none
  · simp [b.raise_of_none c he, Block.raise_eq]
  · rw [b.raise_of_err c he, b.raise_of_err c he]

/-- Repeating a checked write of KEXP changes nothing more: the data alone decides which check answers
(`10_state.md` R26). -/
theorem Block.writeKexp_idem (b : Block p) (d : Word p.w) : (b.writeKexp d).writeKexp d = b.writeKexp d := by
  unfold Block.writeKexp
  split
  · exact b.raise_idem .invexp
  · split
    · exact b.raise_idem .alloc
    · rfl

theorem Block.writeStatus_idem (b : Block p) (d : Word p.w) : (b.writeStatus d).writeStatus d = b.writeStatus d := by
  simp only [Block.writeStatus_eq]
  split <;> rfl

theorem Block.setLimb_idem (b : Block p) (j : Buf) (i : Fin p.nmax) (v : Word p.w) :
    (b.setLimb j i v).setLimb j i v = b.setLimb j i v := by
  simp [Block.setLimb]

/-- A bus write to any address but CMD's applies an idempotent function to the block, with a reply that the block has no
part in (`20_memory.md` R56). -/
theorem busWrite_idempotent {a : Nat} (d : Word p.w) (ha : a ≠ 4) :
    ∃ (f : Block p → Block p) (r' : Reply p), (∀ b, f (f b) = f b) ∧
      ∀ b evs r, busWrite ⟨p, b, evs, r⟩ a d = .next ⟨p, f b, evs, some r'⟩ := by
  cases ht : target p a with
  | none => exact ⟨id, .writeError, fun _ => rfl, fun b evs r => busWrite_of_none b evs r d ht⟩
  | some t =>
    have hwrite (b : Block p) (evs) (r) := busWrite_of_target b evs r d ht
    cases t with
    | cmd => exact absurd (addr_of_target ht) ha
    | cap => exact ⟨id, .writeError, fun _ => rfl, hwrite⟩
    | nlimb => exact ⟨id, .writeError, fun _ => rfl, hwrite⟩
    | kexp => exact ⟨fun b => b.writeKexp d, .done, fun b => b.writeKexp_idem d, hwrite⟩
    | val => exact ⟨fun b => { b with val := d }, .done, fun _ => rfl, hwrite⟩
    | status => exact ⟨fun b => b.writeStatus d, .done, fun b => b.writeStatus_idem d, hwrite⟩
    | flags => exact ⟨fun b => b.writeFlags d, .done, fun _ => rfl, hwrite⟩
    | limb j i => exact ⟨fun b => b.setLimb j i d, .done, fun b => b.setLimb_idem j i d, hwrite⟩

/-! ## The bus (tier 2) -/

/-- Settles O8: every mapped address is its target's own, and the others name nothing. -/
theorem readsReturnTheMappedWord : Obligations.ReadsReturnTheMappedWord := by
  intro p b evs r
  have hmapped := step_read_addr b evs r
  exact ⟨hmapped .cap, hmapped .kexp, hmapped .nlimb, hmapped .val, hmapped .cmd, hmapped .status, hmapped .flags,
    fun j i => hmapped (.limb j i), fun _ ha => step_read_unmapped b evs r ha⟩

/-- Settles O9: CAP and NLIMB take no write, and an unmapped address takes no access. -/
theorem busErrorsChangeNothing : Obligations.BusErrorsChangeNothing := by
  intro p b evs r a d
  refine ⟨step_read_unmapped b evs r, fun ha => ⟨.writeError, rfl, ?_⟩⟩
  rcases ha with rfl | rfl | ha
  · exact busWrite_of_target b evs r d (target_addr .cap)
  · exact busWrite_of_target b evs r d (target_addr .nlimb)
  · exact step_write_unmapped b evs r d ha

/-- Settles O10: the address names the limb, and `setLimb` writes that limb alone. -/
theorem limbWindowReadsAndWritesOneLimb : Obligations.LimbWindowReadsAndWritesOneLimb := by
  intro p b evs r j i v
  exact ⟨step_read_addr b evs r (.limb j i), b.setLimb j i v, .done, rfl,
    busWrite_of_target b evs r v (target_limb p j i), b.limb_setLimb_self j i v,
    fun _ _ hne => b.limb_setLimb_ne v hne, rfl, rfl, rfl, rfl, rfl⟩

/-- Settles O16: the second write applies the same idempotent function to the block. -/
theorem nonCommandWritesAreIdempotent : Obligations.NonCommandWritesAreIdempotent := by
  intro p b evs r a d ha
  obtain ⟨f, r', hidem, hwrite⟩ := busWrite_idempotent d ha
  refine ⟨f b, r', hwrite b _ r, ?_⟩
  rw [step_write, hwrite, hidem]

end Sys2Proof.Machine
end

section
/-! The statements about the encoding: the decoder and the encoder are inverse, each command has one word, the decoder
accepts what the opcode map's match and mask columns admit, and the worked encodings. All of them rest on
`decode_eq_ok_iff`: a data word decodes to a command exactly when its number is the command's word. -/

namespace Sys2Proof

variable {w : Nat} {d : Word w}

/-! ## The fields of a data word -/

theorem bitField_op (d : Word w) : bitField d 3 0 = d.toNat % 16 := by simp [bitField]

theorem bitField_rsv (d : Word w) : bitField d 15 10 = d.toNat / 1024 % 64 := by simp [bitField]

/-- A data word is the sum of its four fields, each at its place, exactly when `rsv` and the bits from 16 up are zero
(`30_encoding.md` R81). -/
theorem toNat_eq_fields_iff {op : Nat} (hop : op < 16) (rd ra rb : Buf) :
    d.toNat = op + 16 * rd.val + 64 * ra.val + 256 * rb.val ↔
      d.toNat / 2 ^ 16 = 0 ∧ bitField d 15 10 = 0 ∧ bitField d 3 0 = op ∧
        bufField d 4 = rd ∧ bufField d 6 = ra ∧ bufField d 8 = rb := by
  simp only [Fin.ext_iff, bufField_val, bitField_op, bitField_rsv]
  omega

/-! ## The decoder -/

/-- A word that decodes is the word of the command it decodes to: no branch of the decoder that answers a command
leaves a field of the word unread. -/
theorem toNat_eq_of_decode_eq_ok {i : Instr} (h : decode d = .ok i) : d.toNat = commandWord i := by
  unfold decode at h
  dsimp only at h
  split at h
  · cases h
  next hup =>
  split at h
  · cases h
  next hrsv =>
  have hfields {op : Nat} (hop : bitField d 3 0 = op) :=
    (toNat_eq_fields_iff (hop ▸ bitField_lt d 3 0) _ _ _).2
      ⟨not_not.1 hup, not_not.1 hrsv, hop, rfl, rfl, rfl⟩
  have hunused {op : Nat} (hop : bitField d 3 0 = op) {j : Instr} (hj : commandWord j = op + 16 * (bufField d 4).val)
      (hok : (if bufField d 6 = 0 ∧ bufField d 8 = 0 then .ok j else .error .unusedField) =
        (.ok i : Except Illegal Instr)) : d.toNat = commandWord i := by
    split at hok
    next hz => cases hok; simpa [hz, hj] using hfields hop
    · cases hok
  split at h
  next hop => exact hunused hop rfl h
  next hop => exact hunused hop rfl h
  next hop => exact hunused hop rfl h
  next hop => cases h; exact hfields hop
  next hop => cases h; exact hfields hop
  · cases h

/-- The word of a command decodes to it: the fields are where the decoder reads them. -/
theorem decode_of_toNat_eq {i : Instr} (h : d.toNat = commandWord i) : decode d = .ok i := by
  have hfields {op : Nat} (hop : op < 16) (rd ra rb : Buf) := (toNat_eq_fields_iff (d := d) hop rd ra rb).1
  cases i with
  | lds rd => simp only [decode, hfields (op := 1) (by decide) rd 0 0 h]; rfl
  | adds rd => simp only [decode, hfields (op := 2) (by decide) rd 0 0 h]; rfl
  | subs rd => simp only [decode, hfields (op := 3) (by decide) rd 0 0 h]; rfl
  | fmul rd ra rb => simp only [decode, hfields (op := 4) (by decide) rd ra rb h]; rfl
  | mmul rd ra rb => simp only [decode, hfields (op := 5) (by decide) rd ra rb h]; rfl

/-- A data word decodes to a command exactly when its number is the command's word (`30_encoding.md` R86). -/
theorem decode_eq_ok_iff {i : Instr} : decode d = .ok i ↔ d.toNat = commandWord i :=
  ⟨toNat_eq_of_decode_eq_ok, decode_of_toNat_eq⟩

/-- A data word that is no command's word is illegal (`30_encoding.md` R85). -/
theorem decode_eq_error_of_ne (h : ∀ i, d.toNat ≠ commandWord i) : ∃ e, decode d = .error e := by
  cases hd : decode d with
  | error e => exact ⟨e, rfl⟩
  | ok i => exact absurd (toNat_eq_of_decode_eq_ok hd) (h i)

/-- LDS, ADDS and SUBS use neither `ra` nor `rb`, and their words hold 0 there (`30_encoding.md` R84). -/
theorem commandWord_unused_fields {i : Instr} (h1 : 1 ≤ commandWord i % 16) (h3 : commandWord i % 16 ≤ 3) :
    commandWord i / 64 % 4 = 0 ∧ commandWord i / 256 % 4 = 0 := by
  cases i <;> simp only [commandWord] at h1 h3 ⊢ <;> omega

/-! ## The masks of the opcode map (`30_encoding.md` R82) -/

/-- A conjunction of two numbers, taken apart at bit `k`. -/
theorem and_eq_high_add_low (n m k : Nat) :
    n &&& m = 2 ^ k * (n / 2 ^ k &&& m / 2 ^ k) + (n % 2 ^ k &&& m % 2 ^ k) := by
  rw [← Nat.and_div_two_pow, ← Nat.and_mod_two_pow, Nat.div_add_mod]

/-- The mask of LDS, ADDS and SUBS keeps every bit of the command word but those of `rd`. -/
theorem and_mask_one_operand (n : Nat) : n &&& 0xFFCF = n % 16 + 64 * (n / 64 % 1024) := by
  have hhigh : n / 64 &&& 1023 = n / 64 % 1024 := Nat.and_two_pow_sub_one_eq_mod _ 10
  have hlow : n % 64 &&& 15 = n % 64 % 16 := Nat.and_two_pow_sub_one_eq_mod _ 4
  have hsplit := and_eq_high_add_low n 0xFFCF 6
  norm_num only [hhigh, hlow] at hsplit
  omega

/-- The mask of FMUL and MMUL keeps every bit of the command word but those of `rd`, `ra` and `rb`. -/
theorem and_mask_three_operands (n : Nat) : n &&& 0xFC0F = n % 16 + 1024 * (n / 1024 % 64) := by
  have hhigh : n / 1024 &&& 63 = n / 1024 % 64 := Nat.and_two_pow_sub_one_eq_mod _ 6
  have hlow : n % 1024 &&& 15 = n % 1024 % 16 := Nat.and_two_pow_sub_one_eq_mod _ 4
  have hsplit := and_eq_high_add_low n 0xFC0F 10
  norm_num only [hhigh, hlow] at hsplit
  omega

/-- The rows with `rd` alone: a word that the row admits is the row's match with some buffer in `rd`. -/
theorem exists_rd_iff_mask {op : Nat} (hop : op < 16) :
    (∃ rd : Buf, d.toNat = op + 16 * rd.val) ↔ d.toNat < 2 ^ 16 ∧ d.toNat &&& 0xFFCF = op := by
  rw [and_mask_one_operand]
  constructor
  · rintro ⟨rd, hd⟩
    omega
  · rintro ⟨hlt, hd⟩
    refine ⟨bufField d 4, ?_⟩
    rw [bufField_val]
    omega

/-- The rows with `rd`, `ra` and `rb`: a word that the row admits is the row's match with some buffer in each. -/
theorem exists_rd_ra_rb_iff_mask {op : Nat} (hop : op < 16) :
    (∃ rd ra rb : Buf, d.toNat = op + 16 * rd.val + 64 * ra.val + 256 * rb.val) ↔
      d.toNat < 2 ^ 16 ∧ d.toNat &&& 0xFC0F = op := by
  rw [and_mask_three_operands]
  constructor
  · rintro ⟨rd, ra, rb, hd⟩
    omega
  · rintro ⟨hlt, hd⟩
    refine ⟨bufField d 4, bufField d 6, bufField d 8, ?_⟩
    simp only [bufField_val]
    omega

/-! ## The encoding (tiers 3, 2 and 1) -/

/-- Settles O1: `decode_eq_ok_iff`, with the number that the encoder's word spells. -/
theorem decodeEncodeAgree : Obligations.DecodeEncodeAgree := by
  intro w hw d i
  exact ⟨decode_eq_ok_iff.2 (encode_toNat hw i), decode_eq_ok_iff, decode_eq_error_of_ne⟩

/-- Settles O2: both words have the number of their command's word, and a word with op 1, 2 or 3 and a non-zero unused
field is no command's word. -/
theorem eachCommandHasOneEncoding : Obligations.EachCommandHasOneEncoding := by
  intro w _ d
  refine ⟨fun i d' hd hd' => ?_, fun h1 h3 hunused => decode_eq_error_of_ne fun i hi => ?_⟩
  · exact BitVec.eq_of_toNat_eq ((toNat_eq_of_decode_eq_ok hd).trans (toNat_eq_of_decode_eq_ok hd').symm)
  · rw [hi] at h1 h3 hunused
    obtain ⟨hra, hrb⟩ := commandWord_unused_fields h1 h3
    exact hunused.elim (· hra) (· hrb)

/-- Settles O3: the words of a command, over all its operands, are the words its row admits. -/
theorem decoderAcceptsTheOpcodeMap : Obligations.DecoderAcceptsTheOpcodeMap := by
  intro w _ d
  simp only [decode_eq_ok_iff, commandWord]
  exact ⟨exists_rd_iff_mask (by decide), exists_rd_iff_mask (by decide), exists_rd_iff_mask (by decide),
    exists_rd_ra_rb_iff_mask (by decide), exists_rd_ra_rb_iff_mask (by decide)⟩

/-- Settles O4: the ten legal words are their commands' words, and each illegal one is illegal for the reason named. -/
theorem workedEncodingsDecode : Obligations.WorkedEncodingsDecode := by
  refine ⟨?_, ?_, ?_, ?_, ?_, ?_, ?_, ?_, ?_, ?_,
    ⟨.opcode, rfl⟩, ⟨.opcode, rfl⟩, ⟨.unusedField, rfl⟩, ⟨.reservedField, rfl⟩, ⟨.upperBits, rfl⟩⟩
  all_goals exact decode_eq_ok_iff.2 rfl

end Sys2Proof
end

section
/-! The statements about LDS, ADDS and SUBS. ADDS and SUBS rest on one exact equation each, which says that the value
left and the flag, weighted by the boundary 2^(W*n), make up the integer result (`addSmall_exact`, `subSmall_exact`),
and on `limbs_carry_unique`: such an equation determines the limbs and the carry. -/

namespace Sys2Proof

/-- The word that issues a command decodes to it, at every legal width (`30_encoding.md` R86). -/
theorem decode_encode (p : Params) (i : Instr) : decode (encode p.w i) = .ok i :=
  decode_eq_ok_iff.2 (encode_toNat p.w_ge i)

end Sys2Proof

namespace Sys2Proof.Machine

variable {p : Params}

/-! ## Limbs with a carry above them -/

/-- Limbs and a carry above them are determined by the integer that they spell. -/
theorem limbs_carry_unique {w m c d : Nat} {xs ys : List (Word w)} (hx : xs.length = m) (hy : ys.length = m)
    (h : limbsValue xs + 2 ^ (w * m) * c = limbsValue ys + 2 ^ (w * m) * d) : xs = ys ∧ c = d := by
  have hxlt : limbsValue xs < 2 ^ (w * m) := hx ▸ limbsValue_lt xs
  have hylt : limbsValue ys < 2 ^ (w * m) := hy ▸ limbsValue_lt ys
  have hvalue := congrArg (· % 2 ^ (w * m)) h
  simp only [Nat.add_mul_mod_self_left, Nat.mod_eq_of_lt hxlt, Nat.mod_eq_of_lt hylt] at hvalue
  rw [hvalue] at h
  exact ⟨limbsValue_inj (hx.trans hy.symm) hvalue,
    Nat.eq_of_mul_eq_mul_left (Nat.two_pow_pos _) (Nat.add_left_cancel h)⟩

/-! ## The ripples (40_limb_carry.md R104, R107) -/

@[simp] theorem rippleAdd_length {w : Nat} (c : Nat) (ls : List (Word w)) : (rippleAdd c ls).1.length = ls.length := by
  induction ls generalizing c with
  | nil => rfl
  | cons l ls ih => simp [ih]

/-- The ripple of the carry computes the sum: limbs and carry out spell it. -/
theorem rippleAdd_exact {w : Nat} (c : Nat) (ls : List (Word w)) :
    limbsValue (rippleAdd c ls).1 + 2 ^ (w * ls.length) * (rippleAdd c ls).2 = limbsValue ls + c := by
  induction ls generalizing c with
  | nil => simp
  | cons l ls ih =>
    have hlimb := Nat.mod_add_div (l.toNat + c) (2 ^ w)
    have hrest := congrArg (2 ^ w * ·) (ih ((l.toNat + c) / 2 ^ w))
    simp only [Nat.mul_add] at hrest
    simp only [rippleAdd_cons, limbsValue_cons, BitVec.toNat_ofNat, List.length_cons, Nat.mul_succ, Nat.pow_add,
      Nat.mul_comm _ (2 ^ w), Nat.mul_assoc]
    omega

/-- A carry of 0 changes no limb (`40_limb_carry.md` R104). -/
theorem rippleAdd_zero {w : Nat} (ls : List (Word w)) : rippleAdd 0 ls = (ls, 0) := by
  induction ls with
  | nil => rfl
  | cons l ls ih => simp [Nat.div_eq_of_lt l.isLt, ih]

@[simp] theorem rippleSub_length {w : Nat} (c : Nat) (ls : List (Word w)) : (rippleSub c ls).1.length = ls.length := by
  induction ls generalizing c with
  | nil => rfl
  | cons l ls ih =>
    rcases Nat.lt_or_ge l.toNat c with h | h
    · simp [rippleSub_cons_of_lt ls h, ih]
    · simp [rippleSub_cons_of_le ls h, ih]

/-- One turn of the borrow loop: the limb written makes up for the amount with what the turn borrows, 0 or 1, and the
rest of the loop subtracts that. -/
theorem rippleSub_cons_exact {w c : Nat} (hc : c ≤ 2 ^ w) (l : Word w) (ls : List (Word w)) :
    ∃ (x : Word w) (d : Nat), d ≤ 1 ∧ x.toNat + c = l.toNat + 2 ^ w * d ∧
      rippleSub c (l :: ls) = (x :: (rippleSub d ls).1, (rippleSub d ls).2) := by
  have hl := l.isLt
  rcases Nat.lt_or_ge l.toNat c with h | h
  · refine ⟨_, 1, Nat.le_refl 1, ?_, rippleSub_cons_of_lt ls h⟩
    rw [BitVec.toNat_ofNat, Nat.mod_eq_of_lt (by omega)]
    omega
  · refine ⟨_, 0, Nat.zero_le 1, ?_, rippleSub_cons_of_le ls h⟩
    rw [BitVec.toNat_ofNat, Nat.mod_eq_of_lt (by omega)]
    omega

/-- The ripple of the borrow computes the difference: the limbs and the amount are the minuend with the borrow out
above it. -/
theorem rippleSub_exact {w c : Nat} (hc : c ≤ 2 ^ w) (ls : List (Word w)) :
    limbsValue (rippleSub c ls).1 + c = limbsValue ls + 2 ^ (w * ls.length) * (rippleSub c ls).2 := by
  induction ls generalizing c with
  | nil => simp
  | cons l ls ih =>
    obtain ⟨x, d, hd, hlimb, hstep⟩ := rippleSub_cons_exact hc l ls
    have hrest := congrArg (2 ^ w * ·) (ih (hd.trans Nat.one_le_two_pow))
    simp only [Nat.mul_add] at hrest
    simp only [hstep, limbsValue_cons, List.length_cons, Nat.mul_succ, Nat.pow_add, Nat.mul_comm _ (2 ^ w),
      Nat.mul_assoc]
    omega

/-! ## LDS (40_limb_carry.md R101) -/

/-- A one-limb integer is written as limb 0 and zeros. -/
theorem writtenLimb_small {w n : Nat} (hn : 0 < n) (v old : Word w) (i : Nat) :
    writtenLimb w n v.toNat i old = if i = 0 then v else if i < n then 0#w else old := by
  unfold writtenLimb
  rcases Nat.eq_zero_or_pos i with rfl | hi
  · simp [hn]
  · have hv : v.toNat < 2 ^ (w * i) :=
      Nat.lt_of_lt_of_le v.isLt (Nat.pow_le_pow_right (by decide) (Nat.le_mul_of_pos_right w hi))
    rw [Nat.div_eq_of_lt hv, if_neg (Nat.ne_of_gt hi)]

theorem Block.loadSmall_limb (b : Block p) (hk : b.k ≠ 0) (rd : Buf) (i : Fin p.nmax) :
    (b.loadSmall rd).limb rd i = if i.val = 0 then b.val else if i.val < b.n then 0#p.w else b.limb rd i := by
  rw [Block.loadSmall, Block.setFlag_limb, b.store_limb_self, writtenLimb_small (b.n_pos hk)]

theorem Block.loadSmall_stored {b : Block p} (hr : b.Ready) (hl : b.Legal) (rd : Buf) :
    (b.loadSmall rd).stored rd = b.val.toNat := by
  obtain ⟨_, hk⟩ := hr
  rw [Block.loadSmall, Block.setFlag_stored, b.stored_store rd _ (b.n_le hl), Nat.mod_eq_of_lt (b.val_lt_boundary hk)]

@[simp] theorem Block.loadSmall_sf_self (b : Block p) (rd : Buf) : (b.loadSmall rd).sf[rd] = false :=
  Block.setFlag_sf_self _ rd false

/-! ## ADDS and SUBS (40_limb_carry.md R103, R106) -/

@[simp] theorem Block.addSmall_n (b : Block p) (rd : Buf) : (b.addSmall rd).n = b.n := rfl
@[simp] theorem Block.addSmall_boundary (b : Block p) (rd : Buf) : (b.addSmall rd).boundary = b.boundary := rfl
@[simp] theorem Block.subSmall_n (b : Block p) (rd : Buf) : (b.subSmall rd).n = b.n := rfl
@[simp] theorem Block.subSmall_boundary (b : Block p) (rd : Buf) : (b.subSmall rd).boundary = b.boundary := rfl

theorem Block.addSmall_cf_iff (b : Block p) (rd : Buf) :
    (b.addSmall rd).cf = true ↔ b.boundary ≤ b.stored rd + b.val.toNat := by
  rw [Block.addSmall_cf, Block.carryOut, decide_eq_true_eq]

theorem Block.subSmall_cf_iff (b : Block p) (rd : Buf) : (b.subSmall rd).cf = true ↔ b.stored rd < b.val.toNat := by
  rw [Block.subSmall_cf, borrowOut, decide_eq_true_eq]
  omega

theorem Block.addSmall_stored {b : Block p} (hl : b.Legal) (rd : Buf) :
    (b.addSmall rd).stored rd = (b.stored rd + b.val.toNat) % b.boundary :=
  (b.stored_store rd _ (b.n_le hl)).trans (Nat.mod_mod _ _)

theorem Block.subSmall_stored {b : Block p} (hl : b.Legal) (rd : Buf) :
    ((b.subSmall rd).stored rd : Int) = ((b.stored rd : Int) - b.val.toNat) % b.boundary := by
  have hb : (b.boundary : Int) ≠ 0 := by exact_mod_cast b.boundary_pos.ne'
  have hstore := b.stored_store rd (((b.stored rd : Int) - b.val.toNat) % b.boundary).toNat (b.n_le hl)
  calc ((b.subSmall rd).stored rd : Int)
      = (((((b.stored rd : Int) - b.val.toNat) % b.boundary).toNat % b.boundary : Nat) : Int) := congrArg _ hstore
    _ = ((b.stored rd : Int) - b.val.toNat) % b.boundary := by
      rw [Int.natCast_emod, Int.toNat_of_nonneg (Int.emod_nonneg _ hb), Int.emod_emod]

/-- ADDS loses nothing of the sum: CF is the part above the boundary. -/
theorem Block.addSmall_exact {b : Block p} (hr : b.Ready) (hl : b.Legal) (rd : Buf) :
    (b.addSmall rd).stored rd + b.boundary * (b.addSmall rd).cf.toNat = b.stored rd + b.val.toNat := by
  obtain ⟨_, hk⟩ := hr
  have hx := b.stored_lt rd
  have hv := b.val_lt_boundary hk
  rw [Block.addSmall_stored hl]
  cases hcf : (b.addSmall rd).cf with
  | false =>
    have hlt := (b.addSmall_cf_iff rd).not.mp (by rw [hcf]; decide)
    simp [Nat.mod_eq_of_lt (Nat.lt_of_not_le hlt)]
  | true =>
    have hle := (b.addSmall_cf_iff rd).mp hcf
    rw [Nat.mod_eq_sub_mod hle, Nat.mod_eq_of_lt (by omega), Bool.toNat_true]
    omega

/-- SUBS loses nothing of the difference: CF is what is borrowed from above the boundary. -/
theorem Block.subSmall_exact {b : Block p} (hr : b.Ready) (hl : b.Legal) (rd : Buf) :
    (b.subSmall rd).stored rd + b.val.toNat = b.stored rd + b.boundary * (b.subSmall rd).cf.toNat := by
  obtain ⟨_, hk⟩ := hr
  have hx := b.stored_lt rd
  have hv := b.val_lt_boundary hk
  have hs := Block.subSmall_stored hl rd
  cases hcf : (b.subSmall rd).cf with
  | false =>
    have hle := (b.subSmall_cf_iff rd).not.mp (by rw [hcf]; decide)
    rw [Int.emod_eq_of_lt (by omega) (by omega)] at hs
    simp only [Bool.toNat_false]
    omega
  | true =>
    have hlt := (b.subSmall_cf_iff rd).mp hcf
    rw [← Int.add_emod_right, Int.emod_eq_of_lt (by omega) (by omega)] at hs
    simp only [Bool.toNat_true]
    omega

theorem exec_lds_performed {b : Block p} (hr : b.Ready) (rd : Buf) (evs : List (Event p)) (r : Option (Reply p)) :
    exec (.lds rd) ⟨p, b, evs, r⟩ = .next ⟨p, b.loadSmall rd, evs, r⟩ := exec_performed (i := .lds rd) hr trivial evs r

theorem exec_adds_performed {b : Block p} (hr : b.Ready) (rd : Buf) (evs : List (Event p)) (r : Option (Reply p)) :
    exec (.adds rd) ⟨p, b, evs, r⟩ = .next ⟨p, b.addSmall rd, evs, r⟩ := exec_performed (i := .adds rd) hr trivial evs r

theorem exec_subs_performed {b : Block p} (hr : b.Ready) (rd : Buf) (evs : List (Event p)) (r : Option (Reply p)) :
    exec (.subs rd) ⟨p, b, evs, r⟩ = .next ⟨p, b.subSmall rd, evs, r⟩ := exec_performed (i := .subs rd) hr trivial evs r

/-- ADDS writes limbs in use of its buffer, and no other limb (`10_state.md` R22). -/
theorem Block.addSmall_limbsKeptBut (b : Block p) (rd : Buf) : b.LimbsKeptBut (b.addSmall rd) rd := by
  obtain ⟨hlimbs, _⟩ := b.effect_frame (.adds rd)
  exact hlimbs

/-- SUBS writes limbs in use of its buffer, and no other limb (`10_state.md` R22). -/
theorem Block.subSmall_limbsKeptBut (b : Block p) (rd : Buf) : b.LimbsKeptBut (b.subSmall rd) rd := by
  obtain ⟨hlimbs, _⟩ := b.effect_frame (.subs rd)
  exact hlimbs

/-- ADDS leaves a ready block ready for the next command. -/
theorem Block.addSmall_ready {b : Block p} (hr : b.Ready) (rd : Buf) : (b.addSmall rd).Ready := hr

theorem Block.addSmall_legal {b : Block p} (hl : b.Legal) (rd : Buf) : (b.addSmall rd).Legal := hl

/-- SUBS leaves a ready block ready for the next command. -/
theorem Block.subSmall_ready {b : Block p} (hr : b.Ready) (rd : Buf) : (b.subSmall rd).Ready := hr

theorem Block.subSmall_legal {b : Block p} (hl : b.Legal) (rd : Buf) : (b.subSmall rd).Legal := hl

/-! ## One carry primitive after another -/

theorem Block.LimbsKeptBut.trans {b c d : Block p} {rd : Buf} (h₁ : b.LimbsKeptBut c rd) (hn : c.n = b.n)
    (h₂ : c.LimbsKeptBut d rd) : b.LimbsKeptBut d rd := by
  obtain ⟨hother₁, habove₁⟩ := h₁
  obtain ⟨hother₂, habove₂⟩ := h₂
  exact ⟨fun j hj => (hother₂ j hj).trans (hother₁ j hj),
    fun i hi => (habove₂ i (hn.symm ▸ hi)).trans (habove₁ i hi)⟩

/-- A block that keeps the limbs outside the ones in use of `rd`, and has the same ones there, has all the limbs. -/
theorem Block.LimbsKeptBut.limbs_eq {b c : Block p} {rd : Buf} (h : b.LimbsKeptBut c rd) (hn : c.n = b.n)
    (hinUse : c.inUse rd = b.inUse rd) : c.limbs = b.limbs := by
  obtain ⟨hother, habove⟩ := h
  have hlimb (i : Nat) (hi : i < p.nmax) : c.limbs[rd][i] = b.limbs[rd][i] := by
    rcases Nat.lt_or_ge i b.n with hin | hout
    · have hget := congrArg (·[i]?) hinUse
      simpa [Block.inUse, hn, List.getElem?_take, hin, hi] using hget
    · exact habove ⟨i, hi⟩ hout
  refine Vector.ext fun j hj => ?_
  by_cases hjrd : (⟨j, hj⟩ : Buf) = rd
  · subst hjrd
    exact Vector.ext hlimb
  · exact hother ⟨j, hj⟩ hjrd

/-- A block that keeps the limbs outside the ones in use of `rd`, and whose value there and carry make up the same
integer, has all the limbs and the same carry. -/
theorem Block.LimbsKeptBut.limbs_carry_eq {b c : Block p} {rd : Buf} {x y : Bool} (h : b.LimbsKeptBut c rd)
    (hl : b.Legal) (hn : c.n = b.n) (he : c.stored rd + b.boundary * x.toNat = b.stored rd + b.boundary * y.toNat) :
    c.limbs = b.limbs ∧ x = y := by
  have hlen : (c.inUse rd).length = b.n := hn ▸ c.inUse_length rd (hn ▸ b.n_le hl)
  obtain ⟨hinUse, hcarry⟩ := limbs_carry_unique hlen (b.inUse_length rd (b.n_le hl)) he
  exact ⟨h.limbs_eq hn hinUse, Function.LeftInverse.injective Bool.ofNat_toNat hcarry⟩

/-- ADDS then SUBS with the same VAL: every limb is back, and both have the same CF (`40_limb_carry.md` R108). -/
theorem Block.subSmall_addSmall {b : Block p} (hr : b.Ready) (hl : b.Legal) (rd : Buf) :
    ((b.addSmall rd).subSmall rd).limbs = b.limbs ∧ (b.addSmall rd).cf = ((b.addSmall rd).subSmall rd).cf := by
  have hadd := Block.addSmall_exact hr hl rd
  have hsub := Block.subSmall_exact (Block.addSmall_ready hr rd) (Block.addSmall_legal hl rd) rd
  rw [Block.addSmall_val, Block.addSmall_boundary] at hsub
  have hkept := (b.addSmall_limbsKeptBut rd).trans (b.addSmall_n rd) ((b.addSmall rd).subSmall_limbsKeptBut rd)
  exact hkept.limbs_carry_eq hl rfl (by omega)

/-- SUBS then ADDS with the same VAL: every limb is back, and both have the same CF (`40_limb_carry.md` R108). -/
theorem Block.addSmall_subSmall {b : Block p} (hr : b.Ready) (hl : b.Legal) (rd : Buf) :
    ((b.subSmall rd).addSmall rd).limbs = b.limbs ∧ ((b.subSmall rd).addSmall rd).cf = (b.subSmall rd).cf := by
  have hsub := Block.subSmall_exact hr hl rd
  have hadd := Block.addSmall_exact (Block.subSmall_ready hr rd) (Block.subSmall_legal hl rd) rd
  rw [Block.subSmall_val, Block.subSmall_boundary] at hadd
  have hkept := (b.subSmall_limbsKeptBut rd).trans (b.subSmall_n rd) ((b.subSmall rd).addSmall_limbsKeptBut rd)
  exact hkept.limbs_carry_eq hl rfl (by omega)

/-- A second sum, with another VAL, wraps as one sum of all three (`40_limb_carry.md` R108). -/
theorem Block.addSmall_addSmall_stored {b : Block p} (hl : b.Legal) (rd : Buf) (u : Word p.w) :
    (({ b.addSmall rd with val := u } : Block p).addSmall rd).stored rd =
      (b.stored rd + b.val.toNat + u.toNat) % b.boundary := by
  have hlegal : ({ b.addSmall rd with val := u } : Block p).Legal := Block.addSmall_legal hl rd
  calc (({ b.addSmall rd with val := u } : Block p).addSmall rd).stored rd
      = ((b.addSmall rd).stored rd + u.toNat) % b.boundary := Block.addSmall_stored hlegal rd
    _ = (b.stored rd + b.val.toNat + u.toNat) % b.boundary := by rw [Block.addSmall_stored hl, Nat.mod_add_mod]

/-! ## The boundary and 2^K (40_limb_carry.md R110) -/

/-- An aligned exponent fills the limbs in use. -/
theorem Block.mul_n_of_aligned (b : Block p) (h : b.k % p.w = 0) : p.w * b.n = b.k := by
  have hk : p.w * (b.k / p.w) = b.k := Nat.mul_div_cancel' (Nat.dvd_of_mod_eq_zero h)
  have hn : b.n ≤ b.k / p.w := (limbCount_le_iff p.w_pos b.k _).mpr hk.ge
  exact Nat.le_antisymm ((Nat.mul_le_mul_left _ hn).trans hk.le) b.k_le

/-- The low K bits of a multiple of 2^K less an amount of at most 2^K. -/
theorem mod_of_add_eq_of_dvd {m bound s t : Nat} (hdvd : m ∣ bound) (hs : s + t = bound) (ht : 0 < t) (htm : t ≤ m) :
    s % m = m - t := by
  obtain ⟨q, rfl⟩ := hdvd
  cases q with
  | zero => omega
  | succ q =>
    have hsplit : s = m - t + m * q := by
      rw [Nat.mul_succ] at hs
      omega
    rw [hsplit, Nat.add_mul_mod_self_left, Nat.mod_eq_of_lt (by omega)]

/-! ## The carry primitives (tier 2) -/

/-- Settles O23: VAL fits limb 0. -/
theorem ldsLoadsSmallValue : Obligations.LdsLoadsSmallValue := by
  intro p b evs r rd hr hl
  have ⟨_, hk⟩ := hr
  obtain ⟨hlimbs, hflags, hcontrol⟩ := b.effect_frame (.lds rd)
  exact ⟨decode_encode p (.lds rd), b.loadSmall rd, exec_lds_performed hr rd evs r, b.loadSmall_limb hk rd,
    Block.loadSmall_stored hr hl rd, b.loadSmall_sf_self rd, hlimbs, hflags, hcontrol, rfl⟩

/-- Settles O24: the sum modulo the boundary, and its carry. -/
theorem addsAddsWithCarry : Obligations.AddsAddsWithCarry := by
  intro p b evs r rd hr hl
  obtain ⟨hlimbs, _, hcontrol⟩ := b.effect_frame (.adds rd)
  exact ⟨decode_encode p (.adds rd), b.addSmall rd, exec_adds_performed hr rd evs r, Block.addSmall_stored hl rd,
    b.addSmall_cf_iff rd, hlimbs, rfl, hcontrol⟩

/-- Settles O25: the difference modulo the boundary, and its borrow. -/
theorem subsSubtractsWithBorrow : Obligations.SubsSubtractsWithBorrow := by
  intro p b evs r rd hr hl
  obtain ⟨hlimbs, _, hcontrol⟩ := b.effect_frame (.subs rd)
  have hstored := Block.subSmall_stored hl rd
  rw [Block.boundary, Nat.cast_pow] at hstored
  exact ⟨decode_encode p (.subs rd), b.subSmall rd, exec_subs_performed hr rd evs r, hstored,
    b.subSmall_cf_iff rd, hlimbs, rfl, hcontrol⟩

/-- Settles O26: ADDS and the ripple spell the same sum. -/
theorem addsIsTheCarryRipple : Obligations.AddsIsTheCarryRipple := by
  intro p b evs r rd hr hl
  refine ⟨⟨b.addSmall rd, exec_adds_performed hr rd evs r, ?_⟩, fun l c => ?_, rippleAdd_zero⟩
  · have hlen := b.inUse_length rd (b.n_le hl)
    have hripple := rippleAdd_exact b.val.toNat (b.inUse rd)
    rw [hlen] at hripple
    obtain ⟨hlimbs, hcarry⟩ := limbs_carry_unique ((b.addSmall rd).inUse_length rd (b.n_le hl))
      ((rippleAdd_length _ _).trans hlen) ((Block.addSmall_exact hr hl rd).trans hripple.symm)
    exact Prod.ext hlimbs hcarry
  · have hlimb := l.isLt
    have hcarry := c.isLt
    exact Nat.le_of_lt_succ (Nat.div_lt_of_lt_mul (by omega))

/-- Settles O27: SUBS and the ripple spell the same difference. -/
theorem subsIsTheBorrowRipple : Obligations.SubsIsTheBorrowRipple := by
  intro p b evs r rd hr hl
  refine ⟨b.subSmall rd, exec_subs_performed hr rd evs r, ?_⟩
  have hlen := b.inUse_length rd (b.n_le hl)
  have hripple := rippleSub_exact b.val.isLt.le (b.inUse rd)
  rw [hlen] at hripple
  have hexact := Block.subSmall_exact hr hl rd
  simp only [Block.stored, Block.boundary] at hexact
  have hsame : limbsValue ((b.subSmall rd).inUse rd) +
        2 ^ (p.w * b.n) * (rippleSub b.val.toNat (b.inUse rd)).2 =
      limbsValue (rippleSub b.val.toNat (b.inUse rd)).1 + 2 ^ (p.w * b.n) * (b.subSmall rd).cf.toNat := by omega
  obtain ⟨hlimbs, hborrow⟩ := limbs_carry_unique ((b.subSmall rd).inUse_length rd (b.n_le hl))
    ((rippleSub_length _ _).trans hlen) hsame
  exact Prod.ext hlimbs hborrow.symm

/-- Settles O28: each primitive cancels the other's exact equation, and two sums wrap as one. -/
theorem addsAndSubsAreInverse : Obligations.AddsAndSubsAreInverse := by
  intro p b evs r rd u hr hl
  have ⟨herr, _⟩ := hr
  have hready₁ := Block.addSmall_ready hr rd
  have hready₃ := Block.subSmall_ready hr rd
  have hreadyU : ({ b.addSmall rd with val := u } : Block p).Ready := hready₁
  obtain ⟨hlimbs₂, hcf₂⟩ := Block.subSmall_addSmall hr hl rd
  obtain ⟨hlimbs₄, hcf₄⟩ := Block.addSmall_subSmall hr hl rd
  refine ⟨b.addSmall rd, (b.addSmall rd).subSmall rd, b.subSmall rd, (b.subSmall rd).addSmall rd, _,
    exec_adds_performed hr rd evs r, exec_subs_performed hready₁ rd evs r, hlimbs₂, hcf₂.symm,
    exec_subs_performed hr rd evs r, exec_adds_performed hready₃ rd evs r, hlimbs₄, hcf₄,
    exec_adds_performed hreadyU rd evs r, Block.addSmall_addSmall_stored hl rd u, herr⟩

/-- Settles O29: the borrow leaves the boundary less the amount, and 2^K divides the boundary. -/
theorem borrowMaskedToKBits : Obligations.BorrowMaskedToKBits := by
  intro p b evs r rd hr hl
  refine ⟨fun hlt hamount => ?_, fun haligned => by rw [b.mul_n_of_aligned haligned]⟩
  have hcf := (b.subSmall_cf_iff rd).mpr hlt
  have hexact := Block.subSmall_exact hr hl rd
  rw [hcf, Bool.toNat_true, Nat.mul_one] at hexact
  have hsum : (b.subSmall rd).stored rd + (b.val.toNat - b.stored rd) = 2 ^ (p.w * b.n) := by
    rw [← Block.boundary]
    omega
  exact ⟨b.subSmall rd, exec_subs_performed hr rd evs r, hcf, hsum,
    mod_of_add_eq_of_dvd b.two_pow_k_dvd hsum (Nat.sub_pos_of_lt hlt) hamount⟩

end Sys2Proof.Machine
end

section
/-! The statements about FMUL. FMUL leaves a valid residue whose true value is the product modulo 2^K+1
(`Block.fermatMul_trueValue`, `Block.fermatMul_validFermat`), and a valid residue's flag and stored value follow from
its true value alone; so each statement about the result is one about the product modulo 2^K+1. -/

namespace Sys2Proof.Machine

variable {p : Params}

/-! ## Valid Fermat residues (10_state.md R23, R24) -/

/-- An unflagged residue is its stored value. -/
theorem Block.trueValue_of_unflagged {b : Block p} {j : Buf} (hf : b.sf[j] = false) : b.trueValue j = b.stored j := by
  simp only [Block.trueValue, hf, Bool.toNat_false, Nat.zero_mul, Nat.add_zero]

/-- A valid flagged residue is 2^K. -/
theorem Block.trueValue_of_flagged {b : Block p} {j : Buf} (hv : b.validFermat j = true) (hf : b.sf[j] = true) :
    b.trueValue j = 2 ^ b.k := by
  obtain ⟨_, hzero⟩ := (b.validFermat_iff j).mp hv
  simp only [Block.trueValue, hf, hzero hf, Bool.toNat_true, Nat.one_mul, Nat.zero_add]

/-- The flag of a valid residue says that its true value is 2^K. -/
theorem Block.sf_iff_of_validFermat {b : Block p} {j : Buf} (hv : b.validFermat j = true) :
    b.sf[j] = true ↔ b.trueValue j = 2 ^ b.k := by
  obtain ⟨hlt, _⟩ := (b.validFermat_iff j).mp hv
  refine ⟨Block.trueValue_of_flagged hv, fun h => ?_⟩
  by_contra hf
  rw [Block.trueValue_of_unflagged (Bool.eq_false_of_not_eq_true hf)] at h
  exact hlt.ne h

/-! ## FMUL (41_fermat_modmul.md R121) -/

theorem exec_fmul_performed {b : Block p} (hr : b.Ready) {ra rb : Buf} (ha : b.validFermat ra = true)
    (hb : b.validFermat rb = true) (rd : Buf) (evs : List (Event p)) (r : Option (Reply p)) :
    exec (.fmul rd ra rb) ⟨p, b, evs, r⟩ = .next ⟨p, b.fermatMul rd ra rb, evs, r⟩ :=
  exec_performed (i := .fmul rd ra rb) hr ⟨ha, hb⟩ evs r

theorem mod_two_pow_succ_le (m k : Nat) : m % (2 ^ k + 1) ≤ 2 ^ k := Nat.le_of_lt_succ (Nat.mod_lt _ (Nat.succ_pos _))

theorem Block.fermatMul_trueValue {b : Block p} (hl : b.Legal) (rd ra rb : Buf) :
    (b.fermatMul rd ra rb).trueValue rd = b.trueValue ra * b.trueValue rb % (2 ^ b.k + 1) := by
  obtain ⟨hvalue, _⟩ := b.storeFermat_result rd (b.n_le hl) (mod_two_pow_succ_le (b.trueValue ra * b.trueValue rb) b.k)
  exact hvalue

theorem Block.fermatMul_validFermat {b : Block p} (hl : b.Legal) (rd ra rb : Buf) :
    (b.fermatMul rd ra rb).validFermat rd = true := by
  obtain ⟨_, hvalid, _⟩ :=
    b.storeFermat_result rd (b.n_le hl) (mod_two_pow_succ_le (b.trueValue ra * b.trueValue rb) b.k)
  exact hvalid

@[simp] theorem Block.fermatMul_kexp (b : Block p) (rd ra rb : Buf) : (b.fermatMul rd ra rb).kexp = b.kexp := by
  obtain ⟨_, _, _, hkexp, _⟩ := b.storeFermat_frame rd (b.trueValue ra * b.trueValue rb % (2 ^ b.k + 1))
  exact hkexp

@[simp] theorem Block.fermatMul_err (b : Block p) (rd ra rb : Buf) : (b.fermatMul rd ra rb).err = b.err := by
  obtain ⟨_, _, _, _, _, herr, _⟩ := b.storeFermat_frame rd (b.trueValue ra * b.trueValue rb % (2 ^ b.k + 1))
  exact herr

@[simp] theorem Block.fermatMul_cf (b : Block p) (rd ra rb : Buf) : (b.fermatMul rd ra rb).cf = b.cf := by
  obtain ⟨_, _, _, _, _, _, hcf⟩ := b.storeFermat_frame rd (b.trueValue ra * b.trueValue rb % (2 ^ b.k + 1))
  exact hcf

@[simp] theorem Block.fermatMul_k (b : Block p) (rd ra rb : Buf) : (b.fermatMul rd ra rb).k = b.k :=
  Block.k_eq_of_kexp (b.fermatMul_kexp rd ra rb)

/-- FMUL sets the destination's flag exactly when the residue of the product is 2^K. -/
theorem Block.fermatMul_sf_iff {b : Block p} (hl : b.Legal) (rd ra rb : Buf) :
    (b.fermatMul rd ra rb).sf[rd] = true ↔ b.trueValue ra * b.trueValue rb % (2 ^ b.k + 1) = 2 ^ b.k := by
  rw [Block.sf_iff_of_validFermat (Block.fermatMul_validFermat hl rd ra rb), Block.fermatMul_trueValue hl,
    Block.fermatMul_k]

/-- FMUL leaves a stored value below 2^K, and 0 under a set flag. -/
theorem Block.fermatMul_stored {b : Block p} (hl : b.Legal) (rd ra rb : Buf) :
    (b.fermatMul rd ra rb).stored rd < 2 ^ b.k ∧
    ((b.fermatMul rd ra rb).sf[rd] = true → (b.fermatMul rd ra rb).stored rd = 0) := by
  have h := (Block.validFermat_iff _ rd).mp (Block.fermatMul_validFermat hl rd ra rb)
  rwa [Block.fermatMul_k] at h

/-- FMUL leaves a ready block ready for the next command. -/
theorem Block.fermatMul_ready {b : Block p} (hr : b.Ready) (rd ra rb : Buf) : (b.fermatMul rd ra rb).Ready := by
  simpa only [Block.Ready, Block.fermatMul_err, Block.fermatMul_k] using hr

theorem Block.fermatMul_legal {b : Block p} (hl : b.Legal) (rd ra rb : Buf) : (b.fermatMul rd ra rb).Legal := by
  simpa only [Block.Legal, Block.fermatMul_k] using hl

/-- Settles O30: the residue of the product is stored as a Fermat residue, and a residue's parts follow from its true
value. -/
theorem fmulMultipliesModulo : Obligations.FmulMultipliesModulo := by
  intro p b evs r rd ra rb hr hl ha hb z
  have hvalue : (b.fermatMul rd ra rb).trueValue rd = z := Block.fermatMul_trueValue hl rd ra rb
  have hflag : (b.fermatMul rd ra rb).sf[rd] = true ↔ z = 2 ^ b.k := Block.fermatMul_sf_iff hl rd ra rb
  obtain ⟨_, hzero⟩ := Block.fermatMul_stored hl rd ra rb
  obtain ⟨hlimbs, hflags, hcontrol⟩ := b.effect_frame (.fmul rd ra rb)
  refine ⟨decode_encode p (.fmul rd ra rb), b.fermatMul rd ra rb, exec_fmul_performed hr ha hb rd evs r,
    fun hz => ?_, fun hz => ?_, Block.fermatMul_validFermat hl rd ra rb, hvalue,
    hlimbs, hflags, hcontrol, b.fermatMul_cf rd ra rb⟩
  · exact ⟨hzero (hflag.mpr hz), hflag.mpr hz⟩
  · have hclear := Bool.eq_false_of_not_eq_true (hflag.not.mpr hz)
    exact ⟨(Block.trueValue_of_unflagged hclear).symm.trans hvalue, hclear⟩

/-! ## The split and the correction (41_fermat_modmul.md R122, R123) -/

/-- The difference d of `41_fermat_modmul.md` R123, the low half of a product less its high half. -/
def fermatDifference (k prod : Nat) : Int := splitLow k prod - splitHigh k prod

theorem splitLow_lt (k prod : Nat) : splitLow k prod < 2 ^ k := Nat.mod_lt _ (Nat.two_pow_pos k)

/-- The product of two numbers of K bits has a high half of K bits. -/
theorem splitHigh_mul_lt {k x y : Nat} (hx : x < 2 ^ k) (hy : y < 2 ^ k) : splitHigh k (x * y) < 2 ^ k :=
  Nat.div_lt_of_lt_mul (Nat.mul_lt_mul'' hx hy)

/-- The difference lies strictly between -2^K and 2^K. -/
theorem fermatDifference_bounds {k prod : Nat} (hhi : splitHigh k prod < 2 ^ k) :
    -(2 ^ k : Int) < fermatDifference k prod ∧ fermatDifference k prod < 2 ^ k := by
  have hlo := splitLow_lt k prod
  unfold fermatDifference
  zify at hlo hhi
  omega

/-- Without a borrow the reduction is the difference. -/
theorem fermatReduce_of_nonneg {k prod : Nat} (hd : 0 ≤ fermatDifference k prod) :
    (fermatReduce k prod : Int) = fermatDifference k prod := by
  unfold fermatDifference at hd ⊢
  rw [fermatReduce, if_pos (by omega)]
  omega

/-- After a borrow the reduction is the difference and the modulus. -/
theorem fermatReduce_of_neg {k prod : Nat} (hhi : splitHigh k prod < 2 ^ k) (hd : fermatDifference k prod < 0) :
    (fermatReduce k prod : Int) = fermatDifference k prod + 2 ^ k + 1 := by
  unfold fermatDifference at hd ⊢
  rw [fermatReduce, if_neg (by omega)]
  push_cast [Nat.cast_sub (show splitHigh k prod ≤ splitLow k prod + (2 ^ k + 1) by omega)]
  ring

/-- The reduction leaves 2^K exactly when the difference is -1. -/
theorem fermatReduce_eq_two_pow_iff {k prod : Nat} (hhi : splitHigh k prod < 2 ^ k) :
    fermatReduce k prod = 2 ^ k ↔ fermatDifference k prod = -1 := by
  obtain ⟨_, hlt⟩ := fermatDifference_bounds hhi
  rw [← Nat.cast_inj (R := Int), Nat.cast_pow, Nat.cast_ofNat]
  rcases lt_or_ge (fermatDifference k prod) 0 with hd | hd
  · rw [fermatReduce_of_neg hhi hd]
    omega
  · rw [fermatReduce_of_nonneg hd]
    omega

theorem mod_eq_of_add_mul_eq {n m q z : Nat} (h : z + m * q = n) (hz : z < m) : n % m = z := by
  rw [← h, Nat.add_mul_mod_self_left, Nat.mod_eq_of_lt hz]

/-- What the reduction subtracts from the product is a multiple of the modulus: the high half times the modulus, one
modulus less after a borrow. -/
theorem fermatReduce_eq_mod {k prod : Nat} (hhi : splitHigh k prod < 2 ^ k) :
    fermatReduce k prod = prod % (2 ^ k + 1) := by
  have hprod := split_eq k prod
  have hlo := splitLow_lt k prod
  unfold fermatReduce
  split
  next hle =>
    have hq : (splitLow k prod - splitHigh k prod) + (2 ^ k + 1) * splitHigh k prod = prod := by
      rw [Nat.add_mul, Nat.mul_comm]
      omega
    exact (mod_eq_of_add_mul_eq hq (by omega)).symm
  next hgt =>
    obtain ⟨q, hsucc⟩ : ∃ q, splitHigh k prod = q + 1 := ⟨splitHigh k prod - 1, by omega⟩
    rw [hsucc, Nat.add_mul] at hprod
    have hq : (splitLow k prod + (2 ^ k + 1) - splitHigh k prod) + (2 ^ k + 1) * q = prod := by
      rw [Nat.add_mul, Nat.mul_comm (2 ^ k)]
      omega
    exact (mod_eq_of_add_mul_eq hq (by omega)).symm

/-- Settles O31: the reduction is the residue modulo 2^K+1, and its value follows from the sign of the difference. -/
theorem fmulIsSplitSubtractCorrect : Obligations.FmulIsSplitSubtractCorrect := by
  intro p b evs r rd ra rb hr hl ha hb hfa hfb prod lo hi d
  obtain ⟨hx, _⟩ := (b.validFermat_iff ra).mp ha
  obtain ⟨hy, _⟩ := (b.validFermat_iff rb).mp hb
  have hhi : hi < 2 ^ b.k := splitHigh_mul_lt hx hy
  obtain ⟨hgt, hlt⟩ := fermatDifference_bounds hhi
  have hmod : b.trueValue ra * b.trueValue rb % (2 ^ b.k + 1) = fermatReduce b.k prod := by
    rw [Block.trueValue_of_unflagged hfa, Block.trueValue_of_unflagged hfb, fermatReduce_eq_mod hhi]
  have hvalue := (Block.fermatMul_trueValue hl rd ra rb).trans hmod
  have hflag := Block.fermatMul_sf_iff hl rd ra rb
  rw [hmod] at hflag
  have htop : fermatReduce b.k prod = 2 ^ b.k ↔ d = -1 := fermatReduce_eq_two_pow_iff hhi
  obtain ⟨_, hzero⟩ := Block.fermatMul_stored hl rd ra rb
  refine ⟨(split_eq b.k prod).symm, hhi, hgt, hlt, b.fermatMul rd ra rb,
    exec_fmul_performed hr ha hb rd evs r, hvalue, ?_⟩
  rw [hvalue]
  refine ⟨fun hd => ?_, fun hd => ?_, htop, hflag.trans htop, hzero⟩
  · have hred : (fermatReduce b.k prod : Int) = d := fermatReduce_of_nonneg hd
    refine ⟨hred, ?_⟩
    zify
    exact hred.trans_lt hlt
  · have hred : (fermatReduce b.k prod : Int) = d + 2 ^ b.k + 1 := fermatReduce_of_neg hhi hd
    have hgt : -(2 ^ b.k : Int) < d := hgt
    refine ⟨hred, ?_⟩
    zify
    omega

/-! ## Flagged operands (41_fermat_modmul.md R124, R127) -/

/-- Multiplying by 2^K negates modulo 2^K+1. -/
theorem two_pow_mul_mod {k y : Nat} (hy : y ≤ 2 ^ k) :
    2 ^ k * y % (2 ^ k + 1) = if y = 0 then 0 else 2 ^ k + 1 - y := by
  cases y with
  | zero => simp
  | succ y =>
    have hq : (2 ^ k + 1 - (y + 1)) + (2 ^ k + 1) * y = 2 ^ k * (y + 1) := by
      rw [Nat.add_mul, Nat.mul_succ]
      omega
    rw [if_neg (Nat.succ_ne_zero y)]
    exact mod_eq_of_add_mul_eq hq (by omega)

/-- The table of `41_fermat_modmul.md` R124 is the product of the true values modulo 2^K+1. -/
theorem Block.fermatTable_eq_mod {b : Block p} {ra rb : Buf} (ha : b.validFermat ra = true)
    (hb : b.validFermat rb = true) :
    fermatTable b.k (b.stored ra) (b.stored rb) b.sf[ra] b.sf[rb] =
      b.trueValue ra * b.trueValue rb % (2 ^ b.k + 1) := by
  obtain ⟨hx, _⟩ := (b.validFermat_iff ra).mp ha
  obtain ⟨hy, _⟩ := (b.validFermat_iff rb).mp hb
  cases hfa : b.sf[ra] <;> cases hfb : b.sf[rb]
  case false.false =>
    rw [Block.trueValue_of_unflagged hfa, Block.trueValue_of_unflagged hfb]
    exact fermatReduce_eq_mod (splitHigh_mul_lt hx hy)
  case false.true =>
    rw [Block.trueValue_of_unflagged hfa, Block.trueValue_of_flagged hb hfb, Nat.mul_comm, two_pow_mul_mod hx.le]
    rfl
  case true.false =>
    rw [Block.trueValue_of_flagged ha hfa, Block.trueValue_of_unflagged hfb, two_pow_mul_mod hy.le]
    rfl
  case true.true =>
    rw [Block.trueValue_of_flagged ha hfa, Block.trueValue_of_flagged hb hfb, two_pow_mul_mod le_rfl,
      if_neg (Nat.two_pow_pos _).ne', Nat.add_sub_cancel_left]
    rfl

/-- Settles O32: the table is the residue of the product, read row by row. -/
theorem fmulFlaggedOperandsNegate : Obligations.FmulFlaggedOperandsNegate := by
  intro p b evs r rd ra rb hr hl ha hb x y
  obtain ⟨hylt, _⟩ := (b.validFermat_iff rb).mp hb
  have htable : fermatTable b.k x y b.sf[ra] b.sf[rb] = _ := Block.fermatTable_eq_mod ha hb
  have hvalue := (Block.fermatMul_trueValue hl rd ra rb).trans htable.symm
  have hflag := Block.fermatMul_sf_iff hl rd ra rb
  rw [← htable] at hflag
  refine ⟨b.fermatMul rd ra rb, exec_fmul_performed hr ha hb rd evs r, hvalue, fun hfa hfb => ?_, fun hfa hfb => ?_,
    fun hfa hfb => ?_, fun hfa hfb => ?_⟩
  · rw [Block.fermatMul_trueValue hl, Block.trueValue_of_unflagged hfa, Block.trueValue_of_unflagged hfb]
  · rw [hfa, hfb] at hvalue hflag
    refine ⟨Block.trueValue_of_flagged ha hfa, hvalue, hflag.trans ?_⟩
    have hpos := Nat.two_pow_pos b.k
    have hy : y < 2 ^ b.k := hylt
    simp only [fermatTable]
    split <;> omega
  · rw [hfa, hfb] at hvalue
    exact ⟨Block.trueValue_of_flagged hb hfb, hvalue⟩
  · rw [hfa, hfb] at hvalue
    exact hvalue

/-- The folded form differs from the product of the true values by a multiple of 2^K+1, because 2^K is congruent to
-1 (`41_fermat_modmul.md` R127). -/
theorem Block.trueValue_mul_modEq_folded (b : Block p) (ra rb : Buf) :
    (b.trueValue ra * b.trueValue rb : Int) ≡ foldedProduct (b.stored ra) (b.stored rb) b.sf[ra] b.sf[rb]
      [ZMOD 2 ^ b.k + 1] := by
  refine Int.modEq_iff_dvd.mpr ⟨-(b.sf[ra].toNat * b.stored rb + b.sf[rb].toNat * b.stored ra +
    b.sf[ra].toNat * b.sf[rb].toNat * (2 ^ b.k - 1)), ?_⟩
  simp only [foldedProduct, Block.trueValue]
  push_cast
  ring

/-- Settles O34: both numbers have one residue. -/
theorem fmulFoldedAdjustment : Obligations.FmulFoldedAdjustment := by
  intro p b evs r rd ra rb hr hl ha hb
  have hfolded := b.trueValue_mul_modEq_folded ra rb
  refine ⟨hfolded, b.fermatMul rd ra rb, exec_fmul_performed hr ha hb rd evs r, ?_⟩
  rw [Block.fermatMul_trueValue hl, ← hfolded]
  push_cast
  rfl

/-! ## Canonical results (41_fermat_modmul.md R128) -/

/-- The residue 2^K is -1. -/
theorem mod_two_pow_succ_eq_iff (m k : Nat) : m % (2 ^ k + 1) = 2 ^ k ↔ 2 ^ k + 1 ∣ m + 1 := by
  have hle := mod_two_pow_succ_le m k
  rw [Nat.dvd_iff_mod_eq_zero, ← Nat.mod_add_mod]
  constructor
  · intro h
    rw [h, Nat.mod_self]
  · intro h
    have := Nat.le_of_dvd (Nat.succ_pos _) (Nat.dvd_of_mod_eq_zero h)
    omega

/-- Settles O35: a residue is 0 exactly when the modulus divides the product, and 2^K exactly when the product is -1. -/
theorem fmulResultIsCanonical : Obligations.FmulResultIsCanonical := by
  intro p b evs r rd ra rb hr hl ha hb x y
  have hvalue : (b.fermatMul rd ra rb).trueValue rd = x * y % (2 ^ b.k + 1) := Block.fermatMul_trueValue hl rd ra rb
  obtain ⟨hlt, hzero⟩ := Block.fermatMul_stored hl rd ra rb
  have hflag := (Block.fermatMul_sf_iff hl rd ra rb).trans (mod_two_pow_succ_eq_iff (x * y) b.k)
  refine ⟨b.fermatMul rd ra rb, exec_fmul_performed hr ha hb rd evs r, hlt, hzero, ?_, fun h => ?_, hflag⟩
  · rw [hvalue, ← Nat.dvd_iff_mod_eq_zero]
    refine ⟨fun h => .inr (.inr h), ?_⟩
    rintro (hx | hy | h)
    · simp [hx]
    · simp [hy]
    · exact h
  · obtain ⟨hstored, hsf⟩ := Nat.add_eq_zero_iff.mp h
    refine ⟨hstored, ?_⟩
    by_contra hset
    simp [Bool.eq_true_of_not_eq_false hset] at hsf

/-! ## Commuting sources (41_fermat_modmul.md R128, 42_mersenne_modmul.md R146) -/

theorem Block.fermatMul_comm (b : Block p) (rd ra rb : Buf) : b.fermatMul rd ra rb = b.fermatMul rd rb ra := by
  rw [Block.fermatMul, Block.fermatMul, Nat.mul_comm]

theorem Block.mersenneMul_comm (b : Block p) (rd ra rb : Buf) : b.mersenneMul rd ra rb = b.mersenneMul rd rb ra := by
  rw [Block.mersenneMul, Block.mersenneMul, Nat.mul_comm]

/-- Settles O36: the product and the operand check are symmetric, whatever the gate decides. -/
theorem productsCommute : Obligations.ProductsCommute := by
  rintro ⟨p, b, evs, r⟩ rd ra rb
  constructor
  · rw [exec_fmul, exec_fmul, b.fermatMul_comm, Bool.and_comm]
  · rw [exec_mmul, exec_mmul, b.mersenneMul_comm, Bool.and_comm]

/-! ## Squaring chains (41_fermat_modmul.md R129) -/

/-- The block performs commands, its exponent is k, and buffer j holds a valid residue of x modulo 2^k+1. -/
structure Block.HoldsResidue (b : Block p) (j : Buf) (k x : Nat) : Prop where
  ready : b.Ready
  legal : b.Legal
  exponent : b.k = k
  valid : b.validFermat j = true
  value : b.trueValue j = x % (2 ^ k + 1)

/-- One squaring of a residue leaves the residue of the square. -/
theorem Block.HoldsResidue.square {b : Block p} {j : Buf} {k x : Nat} (h : b.HoldsResidue j k x) (rd : Buf) :
    (b.fermatMul rd j j).HoldsResidue rd k (x ^ 2) where
  ready := Block.fermatMul_ready h.ready rd j j
  legal := Block.fermatMul_legal h.legal rd j j
  exponent := (b.fermatMul_k rd j j).trans h.exponent
  valid := Block.fermatMul_validFermat h.legal rd j j
  value := by rw [Block.fermatMul_trueValue h.legal, h.exponent, h.value, ← Nat.mul_mod, sq]

/-- Settles O37, by induction on the number of squarings. -/
theorem fmulSquaringChain : Obligations.FmulSquaringChain := by
  intro p blocks dst evs r hr hl hv hstep j
  have hchain : (blocks j).HoldsResidue (dst j) (blocks 0).k ((blocks 0).trueValue (dst 0) ^ 2 ^ j) := by
    induction j with
    | zero =>
      have hle := (blocks 0).trueValue_le (dst 0) hv
      exact ⟨hr, hl, rfl, hv, by rw [pow_zero, pow_one, Nat.mod_eq_of_lt (Nat.lt_succ_of_le hle)]⟩
    | succ j ih =>
      have hnext := hstep j
      rw [exec_fmul_performed ih.ready ih.valid ih.valid] at hnext
      rw [block_eq_of_next hnext, pow_succ, pow_mul]
      exact ih.square (dst (j + 1))
  exact ⟨hchain.valid, hchain.value⟩

/-! ## The schoolbook product (41_fermat_modmul.md R126) -/

/-- The limbs of a buffer, as integers, spell its value. -/
theorem digitsValue_map_toNat {w : Nat} (ls : List (Word w)) : digitsValue w (ls.map BitVec.toNat) = limbsValue ls := by
  induction ls with
  | nil => rfl
  | cons l ls ih => rw [List.map_cons, digitsValue_cons, ih, limbsValue_cons]

theorem digitsValue_replicate_zero (w m : Nat) : digitsValue w (List.replicate m 0) = 0 := by
  induction m with
  | zero => rfl
  | succ m ih => rw [List.replicate_succ, digitsValue_cons, ih]; rfl

/-- Writing one digit exchanges that digit's share of the value. -/
theorem digitsValue_set (w v : Nat) {m : Nat} {ds : List Nat} (hm : m < ds.length) :
    digitsValue w (ds.set m v) + 2 ^ (w * m) * ds.getD m 0 = digitsValue w ds + 2 ^ (w * m) * v := by
  induction ds generalizing m with
  | nil => cases hm
  | cons d ds ih =>
    cases m with
    | zero =>
      simp only [List.set_cons_zero, List.getD_cons_zero, digitsValue_cons, Nat.mul_zero, Nat.pow_zero, Nat.one_mul]
      omega
    | succ m =>
      have hrest := congrArg (2 ^ w * ·) (ih (Nat.lt_of_succ_lt_succ hm))
      simp only [List.set_cons_succ, List.getD_cons_succ, digitsValue_cons, Nat.mul_succ w, Nat.pow_add,
        Nat.mul_comm _ (2 ^ w), Nat.mul_assoc, Nat.mul_add] at hrest ⊢
      omega

/-- The inner loop adds a times the second operand, and the carry it starts with, at its position, when the place for
its last carry is still empty. -/
theorem schoolbookRow_value (w a i : Nat) {j c : Nat} {ys prod : List Nat} (hlen : i + j + ys.length < prod.length)
    (hempty : prod.getD (i + j + ys.length) 0 = 0) :
    digitsValue w (schoolbookRow w a i ys j c prod) =
      digitsValue w prod + 2 ^ (w * (i + j)) * (a * digitsValue w ys + c) := by
  induction ys generalizing j c prod with
  | nil =>
    have hset := digitsValue_set w c hlen
    simp only [List.length_nil, Nat.add_zero] at hempty hset
    rw [hempty] at hset
    simpa using hset
  | cons y ys ih =>
    rw [List.length_cons] at hlen hempty
    have hset := digitsValue_set w ((prod.getD (i + j) 0 + a * y + c) % 2 ^ w)
      (show i + j < prod.length by omega)
    have hdigit := congrArg (2 ^ (w * (i + j)) * ·) (Nat.mod_add_div (prod.getD (i + j) 0 + a * y + c) (2 ^ w))
    rw [schoolbookRow_cons, ih (by rw [List.length_set]; omega)]
    · rw [digitsValue_cons, ← Nat.add_assoc i j 1, Nat.mul_succ w, Nat.pow_add]
      generalize (prod.getD (i + j) 0 + a * y + c) / 2 ^ w = carry at *
      generalize (prod.getD (i + j) 0 + a * y + c) % 2 ^ w = digit at *
      linarith
    · rw [← hempty]
      simp only [List.getD_eq_getElem?_getD]
      rw [List.getElem?_set_ne (by omega)]
      congr 2
      omega

/-- The inner loop writes nothing above the place of its last carry. -/
theorem schoolbookRow_getD_above (w a i : Nat) {j c m : Nat} {ys prod : List Nat} (hm : i + j + ys.length < m) :
    (schoolbookRow w a i ys j c prod).getD m 0 = prod.getD m 0 := by
  induction ys generalizing j c prod with
  | nil =>
    simp only [schoolbookRow_nil, List.getD_eq_getElem?_getD]
    rw [List.getElem?_set_ne (by simp at hm; omega)]
  | cons y ys ih =>
    rw [List.length_cons] at hm
    rw [schoolbookRow_cons, ih (by omega)]
    simp only [List.getD_eq_getElem?_getD]
    rw [List.getElem?_set_ne (by omega)]

/-- The outer loop adds the product of the operands at its position, when everything above the digits that earlier
turns have written is empty. -/
theorem schoolbookRows_value (w : Nat) {xs ys : List Nat} {i : Nat} {prod : List Nat}
    (hlen : i + xs.length + ys.length ≤ prod.length) (hempty : ∀ m, i + ys.length ≤ m → prod.getD m 0 = 0) :
    digitsValue w (schoolbookRows w ys xs i prod) =
      digitsValue w prod + 2 ^ (w * i) * (digitsValue w xs * digitsValue w ys) := by
  induction xs generalizing i prod with
  | nil => simp [schoolbookRows]
  | cons a as ih =>
    rw [List.length_cons] at hlen
    have habove (m : Nat) (hm : i + 1 + ys.length ≤ m) : (schoolbookRow w a i ys 0 0 prod).getD m 0 = 0 := by
      rw [schoolbookRow_getD_above w a i (by omega), hempty m (by omega)]
    rw [schoolbookRows, ih (by rw [schoolbookRow_length]; omega) habove,
      schoolbookRow_value w a i (by omega) (hempty _ (by omega)), digitsValue_cons, Nat.mul_succ, Nat.pow_add]
    ring

/-- The schoolbook loops compute the product. -/
theorem schoolbook_value (w : Nat) {xs ys : List Nat} (hlen : xs.length = ys.length) :
    digitsValue w (schoolbook w xs ys) = digitsValue w xs * digitsValue w ys := by
  have hlen' : 0 + xs.length + ys.length ≤ (List.replicate (2 * ys.length) 0).length := by
    rw [List.length_replicate]
    omega
  have hempty (m : Nat) : (List.replicate (2 * ys.length) 0).getD m 0 = 0 := by
    rw [List.getD_eq_getElem?_getD, List.getElem?_getD_replicate_default_eq]
  rw [schoolbook, schoolbookRows_value w hlen' fun m _ => hempty m, digitsValue_replicate_zero]
  simp

theorem schoolbook_length (w : Nat) (xs ys : List Nat) : (schoolbook w xs ys).length = 2 * ys.length := by
  rw [schoolbook, schoolbookRows_length, List.length_replicate]

/-! ## The digits of the schoolbook product -/

theorem getD_lt_of_forall_lt {w : Nat} {ds : List Nat} (h : ∀ x ∈ ds, x < 2 ^ w) (m : Nat) : ds.getD m 0 < 2 ^ w := by
  rcases Nat.lt_or_ge m ds.length with hm | hm
  · rw [List.getD_eq_getElem _ _ hm]
    exact h _ (List.getElem_mem hm)
  · rw [List.getD_eq_default _ _ hm]
    exact Nat.two_pow_pos w

theorem forall_mem_set_lt {w : Nat} {ds : List Nat} (h : ∀ x ∈ ds, x < 2 ^ w) (m : Nat) {v : Nat} (hv : v < 2 ^ w) :
    ∀ x ∈ ds.set m v, x < 2 ^ w := by
  intro x hx
  rcases List.mem_or_eq_of_mem_set hx with hmem | rfl
  · exact h x hmem
  · exact hv

/-- A digit, a product of two digits and a carry fit two digits, so the carry out is a digit. -/
theorem digit_carry_lt {m d a y c : Nat} (hd : d < m) (ha : a < m) (hy : y < m) (hc : c < m) :
    (d + a * y + c) / m < m := by
  obtain ⟨l, rfl⟩ : ∃ l, m = l + 1 := ⟨m - 1, by omega⟩
  have hprod : a * y ≤ l * l := Nat.mul_le_mul (Nat.le_of_lt_succ ha) (Nat.le_of_lt_succ hy)
  refine Nat.div_lt_of_lt_mul ?_
  rw [Nat.succ_mul, Nat.mul_succ]
  omega

theorem schoolbookRow_lt {w a : Nat} (ha : a < 2 ^ w) (i : Nat) {j c : Nat} {ys prod : List Nat} (hc : c < 2 ^ w)
    (hys : ∀ y ∈ ys, y < 2 ^ w) (hprod : ∀ x ∈ prod, x < 2 ^ w) :
    ∀ x ∈ schoolbookRow w a i ys j c prod, x < 2 ^ w := by
  induction ys generalizing j c prod with
  | nil => exact forall_mem_set_lt hprod _ hc
  | cons y ys ih =>
    obtain ⟨hy, hys⟩ := List.forall_mem_cons.mp hys
    exact ih (digit_carry_lt (getD_lt_of_forall_lt hprod _) ha hy hc) hys
      (forall_mem_set_lt hprod _ (Nat.mod_lt _ (Nat.two_pow_pos w)))

theorem schoolbookRows_lt {w : Nat} {xs ys : List Nat} (hxs : ∀ x ∈ xs, x < 2 ^ w) (hys : ∀ y ∈ ys, y < 2 ^ w)
    (i : Nat) {prod : List Nat} (hprod : ∀ x ∈ prod, x < 2 ^ w) :
    ∀ x ∈ schoolbookRows w ys xs i prod, x < 2 ^ w := by
  induction xs generalizing i prod with
  | nil => exact hprod
  | cons a as ih =>
    obtain ⟨ha, has⟩ := List.forall_mem_cons.mp hxs
    exact ih has (i + 1) (schoolbookRow_lt ha i (Nat.two_pow_pos w) hys hprod)

/-- Every entry of the schoolbook product of two limb lists is a limb. -/
theorem schoolbook_lt {w : Nat} {xs ys : List Nat} (hxs : ∀ x ∈ xs, x < 2 ^ w) (hys : ∀ y ∈ ys, y < 2 ^ w) :
    ∀ x ∈ schoolbook w xs ys, x < 2 ^ w :=
  schoolbookRows_lt hxs hys 0 fun _ hx => by rw [List.eq_of_mem_replicate hx]; exact Nat.two_pow_pos w

theorem forall_mem_map_toNat_lt {w : Nat} (ls : List (Word w)) : ∀ x ∈ ls.map BitVec.toNat, x < 2 ^ w :=
  List.forall_mem_map.mpr fun l _ => l.isLt

/-- The schoolbook product of the limbs in use of two buffers: 2n limbs that spell the product of the stored
values. -/
theorem Block.schoolbook_inUse {b : Block p} (hl : b.Legal) (ra rb : Buf) :
    let prod := schoolbook p.w ((b.inUse ra).map BitVec.toNat) ((b.inUse rb).map BitVec.toNat)
    prod.length = 2 * b.n ∧ (∀ x ∈ prod, x < 2 ^ p.w) ∧ digitsValue p.w prod = b.stored ra * b.stored rb := by
  have hlen (j : Buf) : ((b.inUse j).map BitVec.toNat).length = b.n := by
    rw [List.length_map, b.inUse_length j (b.n_le hl)]
  refine ⟨by rw [schoolbook_length, hlen], schoolbook_lt (forall_mem_map_toNat_lt _) (forall_mem_map_toNat_lt _), ?_⟩
  rw [schoolbook_value p.w ((hlen ra).trans (hlen rb).symm), digitsValue_map_toNat, digitsValue_map_toNat,
    Block.stored, Block.stored]

/-- Settles O33: the loops compute the product of the stored values, which are the true values here. -/
theorem fmulFromTheSchoolbookProduct : Obligations.FmulFromTheSchoolbookProduct := by
  intro p b evs r rd ra rb hr hl ha hb hfa hfb prod
  obtain ⟨hlen, hlimbs, hvalue⟩ := Block.schoolbook_inUse hl ra rb
  refine ⟨hlen, hlimbs, hvalue, b.fermatMul rd ra rb, exec_fmul_performed hr ha hb rd evs r, ?_⟩
  rw [Block.fermatMul_trueValue hl, Block.trueValue_of_unflagged hfa, Block.trueValue_of_unflagged hfb, hvalue]

end Sys2Proof.Machine
end

section
/-! The statements about MMUL. MMUL leaves the product of the stored values modulo 2^K-1 (`Block.mersenneMul_stored`),
so each statement about the result is one about that residue: the fold of the two halves of the product has it
(`mersenneReduce_eq_mod`), and SUBS, corrected after a borrow, keeps to residues (`Block.borrowFixup_emod`). -/

namespace Sys2Proof.Machine

variable {p : Params}

/-! ## MMUL (42_mersenne_modmul.md R141) -/

theorem exec_mmul_performed {b : Block p} (hr : b.Ready) {ra rb : Buf} (ha : b.validMersenne ra = true)
    (hb : b.validMersenne rb = true) (rd : Buf) (evs : List (Event p)) (r : Option (Reply p)) :
    exec (.mmul rd ra rb) ⟨p, b, evs, r⟩ = .next ⟨p, b.mersenneMul rd ra rb, evs, r⟩ :=
  exec_performed (i := .mmul rd ra rb) hr ⟨ha, hb⟩ evs r

@[simp] theorem Block.mersenneMul_k (b : Block p) (rd ra rb : Buf) : (b.mersenneMul rd ra rb).k = b.k := rfl
@[simp] theorem Block.mersenneMul_n (b : Block p) (rd ra rb : Buf) : (b.mersenneMul rd ra rb).n = b.n := rfl

/-- MMUL leaves a ready block ready for the next command. -/
theorem Block.mersenneMul_ready {b : Block p} (hr : b.Ready) (rd ra rb : Buf) : (b.mersenneMul rd ra rb).Ready := hr

theorem Block.mersenneMul_legal {b : Block p} (hl : b.Legal) (rd ra rb : Buf) : (b.mersenneMul rd ra rb).Legal := hl

/-- With an exponent configured the modulus 2^K-1 is not 0. -/
theorem mersenneModulus_pos {k : Nat} (hk : k ≠ 0) : 0 < 2 ^ k - 1 := Nat.sub_pos_of_lt (Nat.one_lt_two_pow hk)

theorem Block.mersenneMul_stored {b : Block p} (hr : b.Ready) (hl : b.Legal) (rd ra rb : Buf) :
    (b.mersenneMul rd ra rb).stored rd = b.stored ra * b.stored rb % (2 ^ b.k - 1) := by
  obtain ⟨_, hk⟩ := hr
  have hlt := Nat.mod_lt (b.stored ra * b.stored rb) (mersenneModulus_pos hk)
  rw [Block.mersenneMul, b.stored_store rd _ (b.n_le hl),
    Nat.mod_eq_of_lt (hlt.trans_le ((Nat.sub_le _ _).trans b.two_pow_k_le))]

/-- The result of MMUL is a residue: it is below the modulus, so never the all-ones pattern. -/
theorem Block.mersenneMul_stored_lt {b : Block p} (hr : b.Ready) (hl : b.Legal) (rd ra rb : Buf) :
    (b.mersenneMul rd ra rb).stored rd < 2 ^ b.k - 1 := by
  have ⟨_, hk⟩ := hr
  rw [Block.mersenneMul_stored hr hl]
  exact Nat.mod_lt _ (mersenneModulus_pos hk)

/-- Settles O38: the product's residue is stored, and MMUL writes only its destination's limbs in use. -/
theorem mmulMultipliesModulo : Obligations.MmulMultipliesModulo := by
  intro p b evs r rd ra rb hr hl ha hb
  obtain ⟨hlimbs, _, hcontrol⟩ := b.effect_frame (.mmul rd ra rb)
  exact ⟨decode_encode p (.mmul rd ra rb), b.mersenneMul rd ra rb, exec_mmul_performed hr ha hb rd evs r,
    Block.mersenneMul_stored hr hl rd ra rb, Block.mersenneMul_stored_lt hr hl rd ra rb,
    hlimbs, b.mersenneMul_sf rd ra rb, hcontrol, b.mersenneMul_cf rd ra rb⟩

/-- Settles O55: the loops compute the product of the stored values. -/
theorem mmulFromTheSchoolbookProduct : Obligations.MmulFromTheSchoolbookProduct := by
  intro p b evs r rd ra rb hr hl ha hb prod
  obtain ⟨hlen, hlimbs, hvalue⟩ := Block.schoolbook_inUse hl ra rb
  refine ⟨hlen, hlimbs, hvalue, b.mersenneMul rd ra rb, exec_mmul_performed hr ha hb rd evs r, ?_⟩
  rw [Block.mersenneMul_stored hr hl, hvalue]

/-! ## The fold and the correction (42_mersenne_modmul.md R142, R143) -/

/-- The high half of a product of two numbers of K bits is at most 2^K-2. -/
theorem splitHigh_mul_add_two_le {k x y : Nat} (hk : k ≠ 0) (hx : x < 2 ^ k) (hy : y < 2 ^ k) :
    splitHigh k (x * y) + 2 ≤ 2 ^ k := by
  obtain ⟨q, hq⟩ : ∃ q, 2 ^ k = q + 2 := ⟨2 ^ k - 2, by have := Nat.one_lt_two_pow hk; omega⟩
  have hprod : x * y ≤ (q + 1) * (q + 1) := Nat.mul_le_mul (by omega) (by omega)
  have hhi : splitHigh k (x * y) < q + 1 := by
    refine Nat.div_lt_of_lt_mul (hprod.trans_lt ?_)
    rw [hq]
    exact Nat.mul_lt_mul_of_pos_right (Nat.lt_succ_self _) (Nat.succ_pos q)
  omega

/-- The fold takes a multiple of the modulus away, the high half times (`42_mersenne_modmul.md` R142). -/
theorem mersenneSum_add_mul (k prod : Nat) : mersenneSum k prod + (2 ^ k - 1) * splitHigh k prod = prod := by
  have hle := Nat.le_mul_of_pos_left (splitHigh k prod) (Nat.two_pow_pos k)
  calc mersenneSum k prod + (2 ^ k - 1) * splitHigh k prod
      = splitHigh k prod * 2 ^ k + splitLow k prod := by
        rw [mersenneSum, Nat.sub_mul, Nat.one_mul, Nat.mul_comm _ (2 ^ k)]
        omega
    _ = prod := split_eq k prod

/-- The bound of `42_mersenne_modmul.md` R142 on the sum of the halves. -/
theorem mersenneSum_add_three_le {k prod : Nat} (hhi : splitHigh k prod + 2 ≤ 2 ^ k) :
    mersenneSum k prod + 3 ≤ 2 ^ (k + 1) := by
  have hlo := splitLow_lt k prod
  rw [mersenneSum, Nat.pow_succ]
  omega

/-- The correction stops at a value below the modulus. -/
theorem mersenneCorrect_of_lt {m s : Nat} (h : s < m) (fuel : Nat) : mersenneCorrect m fuel s = s := by
  cases fuel with
  | zero => rfl
  | succ fuel => rw [mersenneCorrect, if_neg (Nat.not_le.mpr h)]

/-- One subtraction brings a value below twice the modulus down to a residue (`42_mersenne_modmul.md` R143). -/
theorem mersenneCorrect_succ_of_lt {m s : Nat} (h : s < 2 * m) (fuel : Nat) :
    mersenneCorrect m (fuel + 1) s = if m ≤ s then s - m else s := by
  rw [mersenneCorrect]
  split
  next hle => exact mersenneCorrect_of_lt (by omega) fuel
  next => rfl

/-- The document's reduction: one conditional subtraction from the sum of the halves. -/
theorem mersenneReduce_eq {k prod : Nat} (hhi : splitHigh k prod + 2 ≤ 2 ^ k) :
    mersenneReduce k prod =
      if 2 ^ k - 1 ≤ mersenneSum k prod then mersenneSum k prod - (2 ^ k - 1) else mersenneSum k prod := by
  have hsum := mersenneSum_add_three_le hhi
  rw [Nat.pow_succ] at hsum
  exact mersenneCorrect_succ_of_lt (by omega) 1

/-- What the reduction subtracts from the product is a multiple of the modulus: the high half times, and once more when
the sum is corrected. -/
theorem mersenneReduce_eq_mod {k prod : Nat} (hhi : splitHigh k prod + 2 ≤ 2 ^ k) :
    mersenneReduce k prod = prod % (2 ^ k - 1) := by
  have hfold := mersenneSum_add_mul k prod
  have hsum := mersenneSum_add_three_le hhi
  rw [Nat.pow_succ] at hsum
  rw [mersenneReduce_eq hhi]
  split
  next hle =>
    have hq : (mersenneSum k prod - (2 ^ k - 1)) + (2 ^ k - 1) * (splitHigh k prod + 1) = prod := by
      rw [Nat.mul_succ]
      omega
    exact (mod_eq_of_add_mul_eq hq (by omega)).symm
  next hlt => exact (mod_eq_of_add_mul_eq hfold (Nat.lt_of_not_le hlt)).symm

/-- Settles O39: the reduction is the residue modulo 2^K-1, and its sum is below twice the modulus. -/
theorem mmulIsFoldAndCorrect : Obligations.MmulIsFoldAndCorrect := by
  intro p b evs r rd ra rb hr hl ha hb prod lo hi m
  have ⟨_, hk⟩ := hr
  have hhi : splitHigh b.k prod + 2 ≤ 2 ^ b.k :=
    splitHigh_mul_add_two_le hk ((b.validMersenne_iff ra).mp ha) ((b.validMersenne_iff rb).mp hb)
  have hreduce : (b.mersenneMul rd ra rb).stored rd = mersenneReduce b.k prod :=
    (Block.mersenneMul_stored hr hl rd ra rb).trans (mersenneReduce_eq_mod hhi).symm
  exact ⟨hhi, mersenneSum_add_three_le hhi, b.mersenneMul rd ra rb, exec_mmul_performed hr ha hb rd evs r, hreduce,
    hreduce.trans (mersenneReduce_eq hhi), Block.mersenneMul_stored_lt hr hl rd ra rb⟩

/-! ## The two zero patterns (42_mersenne_modmul.md R144) -/

/-- A buffer holds v exactly when its limbs in use are the limbs of v (`10_state.md` R21). -/
theorem Block.stored_eq_iff {b : Block p} (hl : b.Legal) (j : Buf) {v : Nat} (hv : v < b.boundary) :
    b.stored j = v ↔ ∀ i : Fin p.nmax, i.val < b.n → (b.limb j i).toNat = v / 2 ^ (p.w * i) % 2 ^ p.w := by
  have hn := b.n_le hl
  have hstore : (b.store j v).stored j = v := by rw [b.stored_store j v hn, Nat.mod_eq_of_lt hv]
  constructor
  · intro h i hi
    have hlimbs : b.inUse j = (b.store j v).inUse j :=
      limbsValue_inj (by rw [b.inUse_length j hn, (b.store j v).inUse_length j hn]; rfl) (h.trans hstore.symm)
    have hget := congrArg (·[i.val]?) hlimbs
    rw [b.store_inUse j v hn] at hget
    have hlimb : b.limb j i = BitVec.ofNat p.w (v / 2 ^ (p.w * i)) := by
      simpa [Block.inUse, Block.limb, hi] using hget
    rw [hlimb, BitVec.toNat_ofNat]
  · intro h
    have hlimbs : b.inUse j = (b.store j v).inUse j := by
      rw [b.store_inUse j v hn]
      refine List.ext_getElem (by rw [b.inUse_length j hn, List.length_map, List.length_range]) fun i h₁ _ => ?_
      have hi : i < b.n := b.inUse_length j hn ▸ h₁
      have hlimb := h ⟨i, hi.trans_le hn⟩ hi
      apply BitVec.eq_of_toNat_eq
      simpa [Block.inUse, Block.limb] using hlimb
    rw [Block.stored, hlimbs]
    exact hstore

/-- The all-ones pattern of k bits, cut at bit a and to w bits: what is left of the ones. -/
theorem two_pow_sub_one_div_mod (k a w : Nat) : (2 ^ k - 1) / 2 ^ a % 2 ^ w = 2 ^ min (k - a) w - 1 := by
  refine Nat.eq_of_testBit_eq fun i => ?_
  simp only [Nat.testBit_mod_two_pow, Nat.testBit_div_two_pow, Nat.testBit_two_pow_sub_one]
  rw [← Bool.decide_and, decide_eq_decide]
  omega

/-- How many of the K bits lie in limb i: K mod W in the top limb of an exponent that is not aligned, W elsewhere. -/
theorem Block.bits_in_limb {b : Block p} (hk : b.k ≠ 0) {i : Nat} (hi : i < b.n) :
    min (b.k - p.w * i) p.w = if i + 1 = b.n ∧ b.k % p.w ≠ 0 then b.k % p.w else p.w := by
  have hpred := b.lt_k_of_pred_n hk
  have hle := b.k_le
  split
  next htop =>
    obtain ⟨hn, hr⟩ := htop
    rw [← hn, Nat.add_sub_cancel] at hpred
    rw [← hn, Nat.mul_succ] at hle
    have hne : b.k - p.w * i ≠ p.w := by
      intro h
      refine hr ?_
      rw [show b.k = p.w * (i + 1) by rw [Nat.mul_succ]; omega, Nat.mul_mod_right]
    have hmod : b.k % p.w = b.k - p.w * i :=
      mod_eq_of_add_mul_eq (q := i) (Nat.sub_add_cancel hpred.le) (by omega)
    rw [hmod]
    omega
  next hfull =>
    have hfits : p.w * (i + 1) ≤ b.k := by
      by_cases hn : i + 1 = b.n
      · rw [hn, b.mul_n_of_aligned (by simpa [hn] using hfull)]
      · exact (Nat.mul_le_mul_left p.w (by omega)).trans hpred.le
    rw [Nat.mul_succ] at hfits
    omega

/-- A buffer holds 2^K-1 exactly when its limbs in use are the all-ones pattern, limb by limb. -/
theorem Block.stored_eq_allOnes_iff {b : Block p} (hl : b.Legal) (hk : b.k ≠ 0) (j : Buf) :
    b.stored j = 2 ^ b.k - 1 ↔ ∀ i : Fin p.nmax, i.val < b.n → (b.limb j i).toNat =
      if i.val + 1 = b.n ∧ b.k % p.w ≠ 0 then 2 ^ (b.k % p.w) - 1 else 2 ^ p.w - 1 := by
  have hlt : 2 ^ b.k - 1 < b.boundary := (Nat.sub_lt (Nat.two_pow_pos _) Nat.one_pos).trans_le b.two_pow_k_le
  rw [Block.stored_eq_iff hl j hlt]
  refine forall₂_congr fun i hi => ?_
  rw [two_pow_sub_one_div_mod, Block.bits_in_limb hk hi]
  split <;> rfl

/-- A buffer that holds 0 has all-zero limbs in use. -/
theorem Block.limb_eq_zero_of_stored {b : Block p} (hl : b.Legal) {j : Buf} (h : b.stored j = 0) (i : Fin p.nmax)
    (hi : i.val < b.n) : b.limb j i = 0#p.w := by
  have hlimb := (Block.stored_eq_iff hl j b.boundary_pos).mp h i hi
  rw [Nat.zero_div, Nat.zero_mod] at hlimb
  exact BitVec.eq_of_toNat_eq hlimb

/-- Settles O40: the result is a residue, which is 0 exactly for a multiple of the modulus. -/
theorem mmulTakesAllOnesAsZero : Obligations.MmulTakesAllOnesAsZero := by
  intro p b evs r rd ra rb hr hl ha hb
  have ⟨_, hk⟩ := hr
  have hvalue := Block.mersenneMul_stored hr hl rd ra rb
  refine ⟨Block.stored_eq_allOnes_iff hl hk ra, b.mersenneMul rd ra rb, exec_mmul_performed hr ha hb rd evs r, ?_, ?_,
    Block.limb_eq_zero_of_stored (Block.mersenneMul_legal hl rd ra rb),
    (Block.mersenneMul_stored_lt hr hl rd ra rb).ne⟩
  · rw [hvalue, Nat.dvd_iff_mod_eq_zero]
  · intro hones
    rw [hvalue, hones, Nat.mul_mod_right]

/-! ## Subtraction modulo 2^K-1 (42_mersenne_modmul.md R147, 43_host_sequences.md R163) -/

/-- A constant below 2^16 fits a data word of every legal width. -/
theorem toNat_ofNat_word (p : Params) {t : Nat} (ht : t < 2 ^ 16) : (BitVec.ofNat p.w t).toNat = t := by
  rw [BitVec.toNat_ofNat, Nat.mod_eq_of_lt (ht.trans_le p.two_pow_16_le)]

/-- SUBS without a borrow leaves a residue's difference modulo 2^K-1. -/
theorem Block.subSmall_emod_of_no_borrow {b : Block p} (hr : b.Ready) (hl : b.Legal) {rd : Buf}
    (hs : b.stored rd < 2 ^ b.k - 1) (hcf : (b.subSmall rd).cf = false) :
    ((b.subSmall rd).stored rd : Int) = ((b.stored rd : Int) - b.val.toNat) % (2 ^ b.k - 1) := by
  have hexact := Block.subSmall_exact hr hl rd
  rw [hcf, Bool.toNat_false, Nat.mul_zero, Nat.add_zero] at hexact
  zify [Nat.one_le_two_pow (n := b.k)] at hs hexact
  rw [← hexact, add_sub_cancel_right, Int.emod_eq_of_lt (by omega) (by omega)]

/-- The second SUBS of the sequence that repairs a borrow: SUBS again, now with VAL 1 (`43_host_sequences.md` R163). -/
def Block.borrowFixup (b : Block p) (rd : Buf) : Block p := ({ b.subSmall rd with val := 1#p.w } : Block p).subSmall rd

/-- The second SUBS does not borrow, and both leave the boundary less the amount borrowed and 1. -/
theorem Block.borrowFixup_exact {b : Block p} (hr : b.Ready) (hl : b.Legal) {rd : Buf}
    (hcf : (b.subSmall rd).cf = true) :
    (b.borrowFixup rd).cf = false ∧
    (b.borrowFixup rd).stored rd + (b.val.toNat - b.stored rd + 1) = b.boundary := by
  have ⟨_, hk⟩ := hr
  have hv := b.val_lt_boundary hk
  let c : Block p := { b.subSmall rd with val := 1#p.w }
  have hready : c.Ready := Block.subSmall_ready hr rd
  have hlegal : c.Legal := Block.subSmall_legal hl rd
  have hone : c.val.toNat = 1 := toNat_ofNat_word p (by decide)
  have hlt := (b.subSmall_cf_iff rd).mp hcf
  have hfirst : c.stored rd + b.val.toNat = b.stored rd + b.boundary * (b.subSmall rd).cf.toNat :=
    Block.subSmall_exact hr hl rd
  rw [hcf, Bool.toNat_true, Nat.mul_one] at hfirst
  have hnoborrow : (c.subSmall rd).cf = false := by
    rw [← Bool.not_eq_true, c.subSmall_cf_iff, hone]
    omega
  have hsecond := Block.subSmall_exact hready hlegal rd
  rw [hnoborrow, hone, Bool.toNat_false, Nat.mul_zero] at hsecond
  refine ⟨hnoborrow, ?_⟩
  show (c.subSmall rd).stored rd + (b.val.toNat - b.stored rd + 1) = b.boundary
  omega

/-- After a borrow of at most the modulus, the second SUBS adds the modulus in the low K bits, because 2^K divides the
boundary (`40_limb_carry.md` R110). -/
theorem Block.borrowFixup_emod {b : Block p} (hr : b.Ready) (hl : b.Legal) {rd : Buf}
    (hv : b.val.toNat ≤ 2 ^ b.k - 1) (hcf : (b.subSmall rd).cf = true) :
    (((b.borrowFixup rd).stored rd % 2 ^ b.k : Nat) : Int) =
      ((b.stored rd : Int) - b.val.toNat) % (2 ^ b.k - 1) := by
  have hlt := (b.subSmall_cf_iff rd).mp hcf
  obtain ⟨_, hexact⟩ := Block.borrowFixup_exact hr hl hcf
  have hlow := mod_of_add_eq_of_dvd b.two_pow_k_dvd hexact (Nat.succ_pos _) (by omega)
  have hsum : (b.borrowFixup rd).stored rd % 2 ^ b.k + b.val.toNat + 1 = 2 ^ b.k + b.stored rd := by
    rw [hlow]
    omega
  zify [Nat.one_le_two_pow (n := b.k)] at hv hlt hsum ⊢
  have hresidue :
      ((b.stored rd : Int) - b.val.toNat) % (2 ^ b.k - 1) = b.stored rd - b.val.toNat + (2 ^ b.k - 1) := by
    rw [← Int.add_emod_right, Int.emod_eq_of_lt (by omega) (by omega)]
  rw [hresidue]
  omega

/-- A difference from MMUL's result has the residue of the difference from the product. -/
theorem Block.mersenneMul_sub_emod {b : Block p} (hr : b.Ready) (hl : b.Legal) (rd ra rb : Buf) (t : Int) :
    (((b.mersenneMul rd ra rb).stored rd : Int) - t) % (2 ^ b.k - 1) =
      ((b.stored ra : Int) * b.stored rb - t) % (2 ^ b.k - 1) := by
  rw [Block.mersenneMul_stored hr hl, Int.natCast_emod, Nat.cast_sub Nat.one_le_two_pow]
  push_cast
  rw [Int.emod_sub_emod]

/-- Settles O41: SUBS subtracts 2 from the residue of the square, corrected after a borrow. -/
theorem lucasLehmerStep : Obligations.LucasLehmerStep := by
  intro p b evs r rd ra hr hl hk ha m v
  let b₁ : Block p := { b.mersenneMul rd ra ra with val := 2#p.w }
  have hready : b₁.Ready := Block.mersenneMul_ready hr rd ra ra
  have hlegal : b₁.Legal := Block.mersenneMul_legal hl rd ra ra
  have hready₂ : ({ b₁.subSmall rd with val := 1#p.w } : Block p).Ready := Block.subSmall_ready hready rd
  have htwo : b₁.val.toNat = 2 := toNat_ofNat_word p (by decide)
  have hresidue : b₁.stored rd < 2 ^ b.k - 1 := Block.mersenneMul_stored_lt hr hl rd ra ra
  have hfits : b₁.val.toNat ≤ 2 ^ b₁.k - 1 := by
    have hfour : 2 ^ 2 ≤ 2 ^ b₁.k := Nat.pow_le_pow_right (by decide) hk
    omega
  have hsquare : ((b₁.stored rd : Int) - b₁.val.toNat) % m = (v * v - 2) % m := by
    rw [htwo]
    exact Block.mersenneMul_sub_emod hr hl rd ra ra 2
  refine ⟨b.mersenneMul rd ra ra, b₁.subSmall rd, b₁.borrowFixup rd, exec_mmul_performed hr ha ha rd evs r,
    exec_subs_performed hready rd evs r, exec_subs_performed hready₂ rd evs r, ?_,
    fun hcf => ?_, fun hcf => ?_⟩
  · rw [b₁.subSmall_cf_iff rd, htwo]
    show b₁.stored rd < 2 ↔ b₁.stored rd = 0 ∨ b₁.stored rd = 1
    omega
  · rw [← hsquare]
    exact Block.subSmall_emod_of_no_borrow hready hlegal hresidue hcf
  · obtain ⟨hnoborrow, _⟩ := Block.borrowFixup_exact hready hlegal hcf
    refine ⟨hnoborrow, ?_⟩
    rw [← hsquare]
    exact Block.borrowFixup_emod hready hlegal hfits hcf

end Sys2Proof.Machine
end

section
/-! The statements about the host sequences. Every line of a sequence is one equation about the machine
(`issue_command`, `issue_ldi`, `fetchBuffer_eq`, and those of the driver's laws), so a sequence is a chain of blocks,
and what it computes is what the commands' own theorems say of the last one. TrialDivision issues no transaction. -/

namespace Sys2Proof.Machine

variable {p : Params}

/-! ## Words as the host writes and reads them (10_state.md R30) -/

/-- A number below 2^W is what its data word holds. -/
theorem toNat_ofNat_of_lt {w v : Nat} (h : v < 2 ^ w) : (BitVec.ofNat w v).toNat = v := by
  rw [BitVec.toNat_ofNat, Nat.mod_eq_of_lt h]

@[simp] theorem statusErr_statusWord (b : Block p) : statusErr b.statusWord.toNat = b.err.code := by
  have hcode := b.err.code_le
  rw [statusErr, b.statusWord_toNat]
  omega

@[simp] theorem statusCarry_statusWord (b : Block p) : statusCarry b.statusWord.toNat = b.cf := by
  have hcode := b.err.code_le
  have hbit : (b.err.code + 16 * b.cf.toNat) / 16 % 2 = b.cf.toNat := by
    have hcf := b.cf.toNat_lt
    omega
  rw [statusCarry, b.statusWord_toNat, hbit]
  cases b.cf <;> rfl

/-- A ready block reports no error. -/
theorem statusErr_of_ready {b : Block p} (hr : b.Ready) : statusErr b.statusWord.toNat = 0 := by
  obtain ⟨herr, _⟩ := hr
  rw [statusErr_statusWord, herr]
  rfl

/-! ## The prologue (43_host_sequences.md R162) -/

/-- CLRERR returns from whatever error is recorded. -/
theorem Block.writeStatus_one (b : Block p) : b.writeStatus (BitVec.ofNat p.w 1) = { b with err := .none } := by
  rw [b.writeStatus_eq, toNat_ofNat_word p (by decide), if_pos rfl]

theorem Block.writeKexp_of_zero (b : Block p) {d : Word p.w} (h : d.toNat = 0) : b.writeKexp d = b.raise .invexp :=
  if_pos h

theorem Block.writeKexp_of_large (b : Block p) {d : Word p.w} (h : kmax p < d.toNat) :
    b.writeKexp d = b.raise .alloc := by
  rw [Block.writeKexp, if_neg (Nat.ne_zero_of_lt h), if_pos h]

theorem Block.writeKexp_of_legal (b : Block p) {d : Word p.w} (h0 : d.toNat ≠ 0) (hmax : d.toNat ≤ kmax p) :
    b.writeKexp d = { b with kexp := d } := by
  rw [Block.writeKexp, if_neg h0, if_neg (Nat.not_lt.mpr hmax)]

/-- The prologue answers by the error that the checked write of KEXP leaves on a block without one. -/
theorem prologue_eq (k : Nat) (b : Block p) (evs : List (Event p)) (r : Option (Reply p)) :
    let c : Block p := ({ b with err := .none } : Block p).writeKexp (BitVec.ofNat p.w k)
    prologue k ⟨p, b, evs, r⟩ =
      if c.err.code = 1 then .error .invalidExponent
      else if c.err.code = 2 then .error .allocationFailure
      else .ok ⟨p, c, evs, some (.data c.statusWord)⟩ := by
  simp only [prologue, issue_clrerr, issue_setk, ask_rdst, statusErr_statusWord, Block.writeStatus_one]

/-- The block that the prologue leaves for a legal exponent. -/
def Block.configured (b : Block p) (k : Nat) : Block p := { b with err := .none, kexp := BitVec.ofNat p.w k }

/-- A legal exponent is configured, from every state. -/
theorem prologue_of_legal {k : Nat} (hk : k ≠ 0) (hmax : k ≤ kmax p) (b : Block p) (evs : List (Event p))
    (r : Option (Reply p)) :
    ∃ r' : Option (Reply p), prologue k ⟨p, b, evs, r⟩ = .ok ⟨p, b.configured k, evs, r'⟩ := by
  have hword := toNat_ofNat_of_lt (hmax.trans_lt p.cap_fits)
  refine ⟨some (.data (b.configured k).statusWord), ?_⟩
  rw [prologue_eq, Block.writeKexp_of_legal _ (hword.trans_ne hk) (hword.trans_le hmax)]
  rfl

/-- Settles O52: the three cases of the checked write of KEXP, each read back from STATUS. -/
theorem prologueConfiguresTheExponent : Obligations.PrologueConfiguresTheExponent := by
  intro p b evs r k hk
  have hword := toNat_ofNat_of_lt hk
  refine ⟨fun hzero => ?_, fun hlarge => ?_, fun hpos hmax => prologue_of_legal (Nat.ne_of_gt hpos) hmax b evs r⟩
  · rw [prologue_eq, Block.writeKexp_of_zero _ (hword.trans hzero), Block.raise_of_none _ _ rfl]
    rfl
  · rw [prologue_eq, Block.writeKexp_of_large _ (hword.symm ▸ hlarge), Block.raise_of_none _ _ rfl]
    rfl

/-! ## Commands and buffers as a host issues them (30_encoding.md R89, 20_memory.md R68) -/

/-- A command line runs the command through the gate, whatever is pending. -/
theorem issue_command (i : Instr) (b : Block p) (evs : List (Event p)) (r : Option (Reply p)) :
    issue (.command i) ⟨p, b, evs, r⟩ = ⟨p, b.gated (b.checked i) (b.effect i), evs, some .done⟩ := by
  have hstep : step ⟨p, b, .write 4 (encode p.w i) :: evs, r⟩ =
      .next ⟨p, b.gated (b.checked i) (b.effect i), evs, some .done⟩ := by
    rw [step_write, busWrite_of_target (a := 4) b evs r _ (target_addr .cmd),
      issueCommand_ok b evs r (decode_encode p i), exec_eq, completed_next, State.withReply_mk]
  show offer (.write 4 (commandWord i)) ⟨p, b, evs, r⟩ = _
  unfold offer
  simp only [Txn.event]
  rw [show BitVec.ofNat p.w (commandWord i) = encode p.w i from rfl, hstep]

/-- On a ready block a command with valid operands is performed. -/
theorem issue_command_performed {i : Instr} {b : Block p} (hr : b.Ready) (hv : b.OperandsValid i)
    (evs : List (Event p)) (r : Option (Reply p)) :
    issue (.command i) ⟨p, b, evs, r⟩ = ⟨p, b.effect i, evs, some .done⟩ := by
  obtain ⟨herr, hk⟩ := hr
  rw [issue_command, b.gated_performed _ herr hk ((b.checked_iff i).mpr hv)]

/-- The first m limbs of an integer written to a buffer; with m = n it is the store. -/
def Block.storeFirst (b : Block p) (j : Buf) (v m : Nat) : Block p :=
  { b with limbs := b.limbs.set j (b.limbs[j].mapIdx fun i old => writtenLimb p.w m v i old) }

theorem Block.storeFirst_n (b : Block p) (j : Buf) (v : Nat) : b.storeFirst j v b.n = b.store j v := rfl

theorem Block.storeFirst_zero (b : Block p) (j : Buf) (v : Nat) : b.storeFirst j v 0 = b := by
  have hlimbs : b.limbs[j].mapIdx (fun i old => writtenLimb p.w 0 v i old) = b.limbs[j] :=
    Vector.ext fun i hi => by simp [writtenLimb]
  rw [Block.storeFirst, hlimbs]
  simp

/-- One limb more. -/
theorem Block.setLimb_storeFirst (b : Block p) (j : Buf) (v : Nat) (i : Fin p.nmax) :
    (b.storeFirst j v i.val).setLimb j i (BitVec.ofNat p.w (v / 2 ^ (p.w * i.val))) =
      b.storeFirst j v (i.val + 1) := by
  have hlimbs : (b.limbs[j].mapIdx fun m old => writtenLimb p.w i.val v m old).set i
        (BitVec.ofNat p.w (v / 2 ^ (p.w * i.val))) =
      b.limbs[j].mapIdx fun m old => writtenLimb p.w (i.val + 1) v m old := by
    refine Vector.ext fun m hm => ?_
    by_cases h : i.val = m
    · subst h
      simp [writtenLimb]
    · have hlt : m < i.val + 1 ↔ m < i.val := by omega
      simp only [Vector.getElem_set, if_neg h, Vector.getElem_mapIdx, writtenLimb, hlt]
  simp only [Block.setLimb, Block.storeFirst, ← hlimbs]
  simp

/-- The writes of an integer's first m limbs, one transaction each. -/
theorem loadInteger_storeFirst (b : Block p) (evs : List (Event p)) (r : Option (Reply p)) (j : Buf) (v : Nat)
    {m : Nat} (hm : m ≤ p.nmax) : ∃ r' : Option (Reply p),
      (loadInteger p m j v).foldl (fun s t => offer t s) ⟨p, b, evs, r⟩ = ⟨p, b.storeFirst j v m, evs, r'⟩ := by
  induction m with
  | zero => exact ⟨r, by rw [b.storeFirst_zero]; rfl⟩
  | succ m ih =>
    obtain ⟨r₁, hfirst⟩ := ih (by omega)
    let i : Fin p.nmax := ⟨m, hm⟩
    have hdata : BitVec.ofNat p.w (v / 2 ^ (p.w * m) % 2 ^ p.w) = BitVec.ofNat p.w (v / 2 ^ (p.w * m)) :=
      BitVec.eq_of_toNat_eq (by simp)
    have hlast : offer (.write (limbAddr p j m) (v / 2 ^ (p.w * m) % 2 ^ p.w)) ⟨p, b.storeFirst j v m, evs, r₁⟩ =
        ⟨p, b.storeFirst j v (m + 1), evs, some .done⟩ :=
      (issue_wrl _ evs r₁ j i _).trans (by rw [hdata, b.setLimb_storeFirst j v i])
    refine ⟨some .done, ?_⟩
    rw [loadInteger] at hfirst ⊢
    rw [List.range_succ, List.map_append, List.foldl_append, hfirst]
    exact hlast

/-- LDI stores the integer in the limbs in use (`30_encoding.md` R90). -/
theorem issue_ldi {b : Block p} (hl : b.Legal) (evs : List (Event p)) (r : Option (Reply p)) (j : Buf) (v : Nat) :
    ∃ r' : Option (Reply p), issue (.ldi j v) ⟨p, b, evs, r⟩ = ⟨p, b.store j v, evs, r'⟩ := by
  rw [← b.storeFirst_n]
  exact loadInteger_storeFirst b evs r j v (b.n_le hl)

/-- The limb reads fetch what the limbs spell and leave the block as it is. -/
theorem fetchInteger_eq (b : Block p) (evs : List (Event p)) (j : Buf) (is : List (Fin p.nmax))
    (r : Option (Reply p)) : ∃ r' : Option (Reply p),
      fetchInteger p.w (is.map fun i => .read (limbAddr p j i.val)) ⟨p, b, evs, r⟩ =
        (limbsValue (is.map (b.limb j)), ⟨p, b, evs, r'⟩) := by
  induction is generalizing r with
  | nil => exact ⟨r, rfl⟩
  | cons i is ih =>
    have hread : offer (.read (limbAddr p j i.val)) ⟨p, b, evs, r⟩ = ⟨p, b, evs, some (.data (b.limb j i))⟩ :=
      congrArg Prod.snd (ask_rdl b evs r j i)
    obtain ⟨r', hrest⟩ := ih (some (.data (b.limb j i)))
    refine ⟨r', ?_⟩
    rw [List.map_cons, fetchInteger, hread, hrest]
    rfl

/-- The limbs in use, by their indices. -/
theorem Block.inUse_eq_map {b : Block p} (hn : b.n ≤ p.nmax) (j : Buf) :
    b.inUse j = ((List.finRange b.n).map (Fin.castLE hn)).map (b.limb j) := by
  refine List.ext_getElem (by simp [b.inUse_length j hn]) fun i _ _ => ?_
  simp [Block.inUse, Block.limb]

/-- Reading a buffer back gives its stored value (`20_memory.md` R68). -/
theorem fetchBuffer_eq {b : Block p} (hl : b.Legal) (evs : List (Event p)) (r : Option (Reply p)) (j : Buf) :
    ∃ r' : Option (Reply p), fetchBuffer b.k j ⟨p, b, evs, r⟩ = (b.stored j, ⟨p, b, evs, r'⟩) := by
  have hn := b.n_le hl
  have hreads : readInteger p b.n j =
      ((List.finRange b.n).map (Fin.castLE hn)).map fun i => .read (limbAddr p j i.val) := by
    rw [readInteger, ← List.map_coe_finRange_eq_range, List.map_map, List.map_map]
    rfl
  obtain ⟨r', hfetch⟩ := fetchInteger_eq b evs j ((List.finRange b.n).map (Fin.castLE hn)) r
  refine ⟨r', ?_⟩
  rw [Block.stored, Block.inUse_eq_map hn, ← hfetch, ← hreads]
  rfl

/-! ## MSUBV (43_host_sequences.md R163) -/

/-- The low k bits of a number, cut at bit a and to w bits. -/
theorem mod_two_pow_div_mod (x k a w : Nat) : x % 2 ^ k / 2 ^ a % 2 ^ w = x / 2 ^ a % 2 ^ min (k - a) w := by
  refine Nat.eq_of_testBit_eq fun i => ?_
  simp only [Nat.testBit_mod_two_pow, Nat.testBit_div_two_pow, ← Bool.and_assoc, ← Bool.decide_and]
  congr 1
  rw [decide_eq_decide]
  omega

/-- A write of one limb in use keeps every limb but those in use of its buffer. -/
theorem Block.setLimb_limbsKeptBut (b : Block p) (j : Buf) {i : Fin p.nmax} (hi : i.val < b.n) (v : Word p.w) :
    b.LimbsKeptBut (b.setLimb j i v) j := by
  refine ⟨fun j' hj => ?_, fun i' hi' => b.limb_setLimb_ne v fun h => ?_⟩
  · have hne : (j : Nat) ≠ j' := fun h => hj (Fin.ext h).symm
    simp [Block.setLimb, hne]
  · obtain ⟨_, rfl⟩ := Prod.mk.inj h
    omega

/-- Masking the top limb in use to K mod W bits takes the stored value modulo 2^K, when K is not aligned. -/
theorem Block.stored_mask_top {b : Block p} (hl : b.Legal) (hk : b.k ≠ 0) (hr : b.k % p.w ≠ 0) (j : Buf)
    {top : Fin p.nmax} (htop : top.val + 1 = b.n) :
    (b.setLimb j top (BitVec.ofNat p.w ((b.limb j top).toNat % 2 ^ (b.k % p.w)))).stored j =
      b.stored j % 2 ^ b.k := by
  have hlimb := (Block.stored_eq_iff hl j (b.stored_lt j)).mp rfl
  have hlt : b.stored j % 2 ^ b.k < b.boundary := (Nat.mod_lt _ (Nat.two_pow_pos _)).trans_le b.two_pow_k_le
  refine (Block.stored_eq_iff (b := b.setLimb j top _) hl j hlt).mpr fun i (hi : i.val < b.n) => ?_
  have hle : b.k % p.w ≤ p.w := (Nat.mod_lt _ p.w_pos).le
  rw [mod_two_pow_div_mod, Block.bits_in_limb hk hi]
  by_cases h : i = top
  · subst h
    have hdvd : 2 ^ (b.k % p.w) ∣ 2 ^ p.w := Nat.pow_dvd_pow 2 hle
    rw [if_pos ⟨htop, hr⟩, Block.limb_setLimb_self, hlimb i hi, BitVec.toNat_ofNat, Nat.mod_mod_of_dvd _ hdvd,
      Nat.mod_mod_of_dvd' hdvd]
  · have hne : ¬ (i.val + 1 = b.n ∧ b.k % p.w ≠ 0) := fun ⟨hn, _⟩ => h (Fin.ext (by omega))
    rw [if_neg hne, b.limb_setLimb_ne _ fun e => h (congrArg Prod.snd e), hlimb i hi]

/-- The masking step leaves the low K bits of its buffer, aligned K or not, and nothing else changed. -/
theorem maskTop_eq {b : Block p} (hl : b.Legal) (hk : b.k ≠ 0) (evs : List (Event p)) (r : Option (Reply p))
    (j : Buf) : ∃ (b' : Block p) (r' : Option (Reply p)), maskTop b.k j ⟨p, b, evs, r⟩ = ⟨p, b', evs, r'⟩ ∧
      b'.stored j = b.stored j % 2 ^ b.k ∧ b.LimbsKeptBut b' j ∧ b'.sf = b.sf ∧ b'.kexp = b.kexp ∧ b'.err = b.err := by
  by_cases hr : b.k % p.w = 0
  · have hlt := b.stored_lt j
    rw [Block.boundary, b.mul_n_of_aligned hr] at hlt
    exact ⟨b, r, if_pos hr, (Nat.mod_eq_of_lt hlt).symm, ⟨fun _ _ => rfl, fun _ _ => rfl⟩, rfl, rfl, rfl⟩
  · have hpos := b.n_pos hk
    have hn := b.n_le hl
    let top : Fin p.nmax := ⟨b.n - 1, by omega⟩
    have htop : top.val + 1 = b.n := Nat.sub_add_cancel hpos
    have hmask : maskTop b.k j ⟨p, b, evs, r⟩ =
        ⟨p, b.setLimb j top (BitVec.ofNat p.w ((b.limb j top).toNat % 2 ^ (b.k % p.w))), evs, some .done⟩ := by
      rw [← issue_wrl b evs (some (.data (b.limb j top))) j top]
      simp only [maskTop, if_neg hr]
      rw [show limbCount p.w b.k - 1 = top.val from rfl, ask_rdl b evs r j top]
    exact ⟨_, _, hmask, Block.stored_mask_top hl hk hr j htop,
      b.setLimb_limbsKeptBut j (by omega) _, rfl, rfl, rfl⟩

/-- The block after SETV. -/
def Block.withVal (b : Block p) (v : Word p.w) : Block p := { b with val := v }

/-- SETV and SUBS, the two lines that subtract a small value. -/
theorem issue_setv_subs {b : Block p} (hr : b.Ready) (evs : List (Event p)) (r : Option (Reply p)) (j : Buf)
    (v : Nat) : issue (.command (.subs j)) (issue (.setv v) ⟨p, b, evs, r⟩) =
      ⟨p, (b.withVal (BitVec.ofNat p.w v)).subSmall j, evs, some .done⟩ :=
  issue_command_performed (i := .subs j) (b := b.withVal (BitVec.ofNat p.w v)) hr trivial evs _

/-- MSUBV without a borrow is one SUBS, with a borrow two and the masking. -/
theorem msubv_eq {b : Block p} (hr : b.Ready) (evs : List (Event p)) (r : Option (Reply p)) (k : Nat) (j : Buf)
    (v : Nat) : msubv k j v ⟨p, b, evs, r⟩ =
      if ((b.withVal (BitVec.ofNat p.w v)).subSmall j).cf then
        maskTop k j ⟨p, (b.withVal (BitVec.ofNat p.w v)).borrowFixup j, evs, some .done⟩
      else
        ⟨p, (b.withVal (BitVec.ofNat p.w v)).subSmall j, evs,
          some (.data ((b.withVal (BitVec.ofNat p.w v)).subSmall j).statusWord)⟩ := by
  have hfirst : ((b.withVal (BitVec.ofNat p.w v)).subSmall j).Ready := hr
  simp only [msubv, issue_setv_subs hr, issue_setv_subs hfirst, ask_rdst, statusCarry_statusWord]
  rfl

/-- Settles O53: without a borrow SUBS leaves the residue, with one the second SUBS and the masking add the modulus. -/
theorem msubvSubtractsModulo : Obligations.MsubvSubtractsModulo := by
  intro p b evs r j v hr hl hk hx hv hword
  have ⟨herr, hk0⟩ := hr
  let c := b.withVal (BitVec.ofNat p.w v)
  have hready : c.Ready := hr
  have hlegal : c.Legal := hl
  have hval : c.val.toNat = v := toNat_ofNat_of_lt hword
  have hkept : b.LimbsKeptBut (c.subSmall j) j := c.subSmall_limbsKeptBut j
  have hmsubv := msubv_eq hr evs r b.k j v
  cases hcf : (c.subSmall j).cf with
  | false =>
    refine ⟨c.subSmall j, _, hmsubv.trans (if_neg (ne_true_of_eq_false hcf)), ?_, hkept, rfl, rfl, herr⟩
    have hres := Block.subSmall_emod_of_no_borrow hready hlegal hx hcf
    rwa [hval] at hres
  | true =>
    have hfixKept : b.LimbsKeptBut (c.borrowFixup j) j :=
      hkept.trans rfl (({ c.subSmall j with val := 1#p.w } : Block p).subSmall_limbsKeptBut j)
    have hfixLegal : (c.borrowFixup j).Legal := hl
    obtain ⟨b', r', hmask, hstored, hmaskKept, hsf, hkexp, herr'⟩ := maskTop_eq hfixLegal hk0 evs (some .done) j
    refine ⟨b', r', hmsubv.trans ((if_pos hcf).trans hmask), ?_, hfixKept.trans rfl hmaskKept, hsf, hkexp,
      herr'.trans herr⟩
    have hres := Block.borrowFixup_emod hready hlegal (hval.trans_le hv) hcf
    rw [hval] at hres
    rw [hstored]
    exact hres

/-! ## TrialDivision (43_host_sequences.md R169) -/

/-- Counting down from a number that is large enough finds the square root. -/
theorem floorSqrtBelow_eq (x : Nat) {r : Nat} (h : Nat.sqrt x ≤ r) : floorSqrtBelow x r = Nat.sqrt x := by
  induction r with
  | zero => exact (Nat.le_zero.mp h).symm
  | succ r ih =>
    unfold floorSqrtBelow
    split
    next hle => exact Nat.le_antisymm (Nat.le_sqrt.mpr hle) h
    next hgt => exact ih (Nat.le_of_lt_succ (Nat.sqrt_lt.mpr (Nat.lt_of_not_le hgt)))

/-- The model's floor square root is the library's (log 15). -/
theorem floorSqrt_eq (x : Nat) : floorSqrt x = Nat.sqrt x := floorSqrtBelow_eq x (Nat.sqrt_le_self x)

/-- The numbers the wheel tries: those next to a multiple of 6. -/
def OnWheel (e : Nat) : Prop := e % 6 = 1 ∨ e % 6 = 5

/-- With turns enough to pass the bound, the wheel from d finds nothing exactly when no number on it from d up to the
bound divides x. -/
theorem wheel_iff (x lim : Nat) {fuel d : Nat} (hd : d % 6 = 5) (hfuel : lim < d + 6 * fuel) :
    wheel x lim fuel d = true ↔ ∀ e, d ≤ e → e ≤ lim → OnWheel e → ¬ e ∣ x := by
  induction fuel generalizing d with
  | zero => exact iff_of_true rfl fun e hde hel => absurd hel (by omega)
  | succ fuel ih =>
    have hrest := ih (d := d + 6) (by omega) (by omega)
    unfold wheel
    split
    next hlim => exact iff_of_true rfl fun e hde hel => absurd hel (by omega)
    split
    next hle hdvd =>
      exact iff_of_false Bool.false_ne_true fun h =>
        h d le_rfl (Nat.le_of_not_lt hle) (.inr hd) (Nat.dvd_of_mod_eq_zero hdvd)
    split
    next hdvd =>
      obtain ⟨hle, hdvd⟩ := hdvd
      exact iff_of_false Bool.false_ne_true fun h =>
        h (d + 2) (by omega) hle (.inl (by omega)) (Nat.dvd_of_mod_eq_zero hdvd)
    next hle hnd hnd2 =>
      rw [hrest]
      refine ⟨fun h e hde hel hon hdvd => ?_, fun h e hde => h e (by omega)⟩
      have hmod := Nat.mod_eq_zero_of_dvd hdvd
      have hturn : e = d ∨ e = d + 2 ∨ d + 6 ≤ e := by
        unfold OnWheel at hon
        omega
      rcases hturn with rfl | rfl | hnext
      · exact hnd hmod
      · exact hnd2 ⟨hel, hmod⟩
      · exact h e hnext hel hon hdvd

/-- A divisor of a number that neither 2 nor 3 divides is on the wheel. -/
theorem onWheel_of_dvd {x e : Nat} (h2 : x % 2 ≠ 0) (h3 : x % 3 ≠ 0) (he : e ∣ x) : OnWheel e := by
  have he2 : ¬ 2 ∣ e := fun h => h2 (Nat.mod_eq_zero_of_dvd (h.trans he))
  have he3 : ¬ 3 ∣ e := fun h => h3 (Nat.mod_eq_zero_of_dvd (h.trans he))
  unfold OnWheel
  omega

/-- Settles O54: beyond 2 and 3, every divisor up to the square root is one the wheel tries. -/
theorem trialDivisionIsExact : Obligations.TrialDivisionIsExact := by
  intro x
  unfold trialDivision
  split
  next hsmall => exact iff_of_false Bool.false_ne_true fun h => absurd h.two_le (Nat.not_le.mpr hsmall)
  split
  next h =>
    refine iff_of_true rfl ?_
    rcases h with rfl | rfl
    · exact Nat.prime_two
    · exact Nat.prime_three
  split
  next hx hne hdvd =>
    refine iff_of_false Bool.false_ne_true fun hp => hne (hdvd.imp (fun h => ?_) fun h => ?_)
    · exact ((Nat.prime_dvd_prime_iff_eq Nat.prime_two hp).mp (Nat.dvd_of_mod_eq_zero h)).symm
    · exact ((Nat.prime_dvd_prime_iff_eq Nat.prime_three hp).mp (Nat.dvd_of_mod_eq_zero h)).symm
  next hx _ hdvd =>
    obtain ⟨h2, h3⟩ := not_or.mp hdvd
    rw [Nat.min_self, floorSqrt_eq, wheel_iff x _ (by decide) (by omega), Nat.prime_def_le_sqrt]
    refine ⟨fun h => ⟨Nat.le_of_not_lt hx, fun e he hle hdiv => ?_⟩, fun ⟨_, h⟩ e he hle _ => h e (by omega) hle⟩
    have hon := onWheel_of_dvd h2 h3 hdiv
    exact h e (by unfold OnWheel at hon; omega) hle hon hdiv

/-! ## The cross-checks (43_host_sequences.md R173) -/

/-- A Z that is the expected integer compares as true. -/
theorem compareWith_self (z : Nat) (s : State) : compareWith z (.ok (z, s)) = .ok (true, s) := by
  rw [compareWith_ok, decide_eq_true rfl]

/-- For a legal exponent the prologue leaves a block that performs commands modulo that exponent, from every state. -/
theorem prologue_ready {k : Nat} (hk : k ≠ 0) (hmax : k ≤ kmax p) (b : Block p) (evs : List (Event p))
    (r : Option (Reply p)) : ∃ (b' : Block p) (r' : Option (Reply p)),
      prologue k ⟨p, b, evs, r⟩ = .ok ⟨p, b', evs, r'⟩ ∧ b'.k = k ∧ b'.Ready ∧ b'.Legal := by
  have hconf : (b.configured k).k = k := toNat_ofNat_of_lt (hmax.trans_lt p.cap_fits)
  obtain ⟨r', hprologue⟩ := prologue_of_legal hk hmax b evs r
  exact ⟨_, r', hprologue, hconf, ⟨rfl, hconf.trans_ne hk⟩, hconf.trans_le hmax⟩

/-- The block with the operands of a cross-check in B0 and B1. -/
def Block.withOperands (b : Block p) (x y : Nat) : Block p := (b.store 0 x).store 1 y

theorem issue_operands {b : Block p} (hl : b.Legal) (evs : List (Event p)) (r : Option (Reply p)) (x y : Nat) :
    ∃ r' : Option (Reply p),
      issue (.ldi 1 y) (issue (.ldi 0 x) ⟨p, b, evs, r⟩) = ⟨p, b.withOperands x y, evs, r'⟩ := by
  have hlegal : (b.store 0 x).Legal := hl
  obtain ⟨r₁, hfirst⟩ := issue_ldi hl evs r 0 x
  obtain ⟨r₂, hsecond⟩ := issue_ldi hlegal evs r₁ 1 y
  exact ⟨r₂, by rw [hfirst, hsecond]; rfl⟩

/-- Operands of K bits are held as they are. -/
theorem Block.withOperands_stored {b : Block p} (hl : b.Legal) {x y : Nat} (hx : x < 2 ^ b.k) (hy : y < 2 ^ b.k) :
    (b.withOperands x y).stored 0 = x ∧ (b.withOperands x y).stored 1 = y := by
  have hn := b.n_le hl
  have hb := b.two_pow_k_le
  constructor
  · rw [Block.withOperands, Block.stored_store_ne _ _ (by decide), b.stored_store 0 x hn,
      Nat.mod_eq_of_lt (hx.trans_le hb)]
  · rw [Block.withOperands, (b.store 0 x).stored_store 1 y hn]
    exact Nat.mod_eq_of_lt (hy.trans_le hb)

/-- The sign flags that SETF sets for the two operands of a Fermat cross-check. -/
theorem Block.writeFlags_two (b : Block p) (f g : Bool) :
    (b.writeFlags (BitVec.ofNat p.w (f.toNat + 2 * g.toNat))).sf[(0 : Buf)] = f ∧
    (b.writeFlags (BitVec.ofNat p.w (f.toNat + 2 * g.toNat))).sf[(1 : Buf)] = g := by
  obtain ⟨h0, h1, _⟩ := testBit_of_four_bits f g false false
  have hf := f.toNat_lt
  have hg := g.toNat_lt
  have hword : (BitVec.ofNat p.w (f.toNat + 2 * g.toNat)).toNat = f.toNat + 2 * g.toNat :=
    toNat_ofNat_word p (by omega)
  rw [b.writeFlags_sf _ 0, b.writeFlags_sf _ 1, BitVec.getLsbD, BitVec.getLsbD, hword]
  exact ⟨h0, h1⟩

/-- A buffer that holds the low K bits of x under the flag that says x = 2^K is the valid residue x
(`10_state.md` R24). -/
theorem Block.residue_of_split {b : Block p} {j : Buf} {x : Nat} (hx : x ≤ 2 ^ b.k) (hs : b.stored j = x % 2 ^ b.k)
    (hf : b.sf[j] = decide (x = 2 ^ b.k)) : b.validFermat j = true ∧ b.trueValue j = x := by
  rcases hx.lt_or_eq with hlt | rfl
  · rw [Nat.mod_eq_of_lt hlt] at hs
    rw [decide_eq_false hlt.ne] at hf
    rw [Block.validFermat_iff, hs, hf, Block.trueValue_of_unflagged hf]
    exact ⟨⟨hlt, nofun⟩, hs⟩
  · rw [Nat.mod_self] at hs
    rw [decide_eq_true rfl] at hf
    have hv : b.validFermat j = true := (b.validFermat_iff j).mpr ⟨hs ▸ Nat.two_pow_pos _, fun _ => hs⟩
    exact ⟨hv, Block.trueValue_of_flagged hv hf⟩

/-- The block with the operands of a Fermat cross-check in B0 and B1 and their flags. -/
def Block.withFermatOperands (b : Block p) (x y : Nat) : Block p :=
  (b.withOperands (x % 2 ^ b.k) (y % 2 ^ b.k)).writeFlags
    (BitVec.ofNat p.w ((decide (x = 2 ^ b.k)).toNat + 2 * (decide (y = 2 ^ b.k)).toNat))

theorem issue_fermat_operands {b : Block p} (hl : b.Legal) (evs : List (Event p)) (r : Option (Reply p)) (x y : Nat) :
    issue (.setf ((decide (x = 2 ^ b.k)).toNat + 2 * (decide (y = 2 ^ b.k)).toNat))
        (issue (.ldi 1 (y % 2 ^ b.k)) (issue (.ldi 0 (x % 2 ^ b.k)) ⟨p, b, evs, r⟩)) =
      ⟨p, b.withFermatOperands x y, evs, some .done⟩ := by
  obtain ⟨r', hload⟩ := issue_operands hl evs r (x % 2 ^ b.k) (y % 2 ^ b.k)
  rw [hload, issue_setf, Block.withFermatOperands]

/-- It holds the true values in [0, 2^K] as valid residues. -/
theorem Block.withFermatOperands_residues {b : Block p} (hl : b.Legal) {x y : Nat} (hx : x ≤ 2 ^ b.k)
    (hy : y ≤ 2 ^ b.k) :
    ((b.withFermatOperands x y).validFermat 0 = true ∧ (b.withFermatOperands x y).trueValue 0 = x) ∧
    ((b.withFermatOperands x y).validFermat 1 = true ∧ (b.withFermatOperands x y).trueValue 1 = y) := by
  have hpow := Nat.two_pow_pos b.k
  obtain ⟨hs0, hs1⟩ := Block.withOperands_stored hl (Nat.mod_lt x hpow) (Nat.mod_lt y hpow)
  obtain ⟨hf0, hf1⟩ := (b.withOperands (x % 2 ^ b.k) (y % 2 ^ b.k)).writeFlags_two
    (decide (x = 2 ^ b.k)) (decide (y = 2 ^ b.k))
  exact ⟨Block.residue_of_split (b := b.withFermatOperands x y) hx hs0 hf0,
    Block.residue_of_split (b := b.withFermatOperands x y) hy hs1 hf1⟩

/-- Bit 2 of FLAGS is the flag of B2 (`10_state.md` R31). -/
theorem Block.flagsWord_two (b : Block p) : b.flagsWord.toNat / 4 % 2 = b.sf[(2 : Buf)].toNat := by
  have h0 := b.sf[0].toNat_lt
  have h1 := b.sf[1].toNat_lt
  have h2 := b.sf[2].toNat_lt
  rw [b.flagsWord_toNat]
  show _ = b.sf[2].toNat
  omega

/-- From every state the block's part of the Fermat cross-check reads back the product modulo 2^k+1. -/
theorem fermatOnBlock_eq {k x y : Nat} (hk : k ≠ 0) (hmax : k ≤ kmax p) (hx : x ≤ 2 ^ k) (hy : y ≤ 2 ^ k)
    (b : Block p) (evs : List (Event p)) (r : Option (Reply p)) :
    ∃ (b' : Block p) (r' : Option (Reply p)),
      fermatOnBlock k x y ⟨p, b, evs, r⟩ = .ok (x * y % (2 ^ k + 1), ⟨p, b', evs, r'⟩) ∧ b'.err = .none := by
  obtain ⟨c, r₁, hprologue, rfl, hr, hl⟩ := prologue_ready hk hmax b evs r
  obtain ⟨⟨hv0, ht0⟩, hv1, ht1⟩ := Block.withFermatOperands_residues hl hx hy
  let c₁ := c.withFermatOperands x y
  have hload : issue _ (issue _ (issue _ ⟨p, c, evs, r₁⟩)) = ⟨p, c₁, evs, some .done⟩ :=
    issue_fermat_operands hl evs r₁ x y
  let d := c₁.fermatMul 2 0 1
  have hr₁ : c₁.Ready := hr
  have hl₁ : c₁.Legal := hl
  have hkd : d.k = c.k := c₁.fermatMul_k 2 0 1
  have hrd : d.Ready := Block.fermatMul_ready hr₁ 2 0 1
  have ⟨herr, _⟩ := hrd
  have hmul : issue (.command (.fmul 2 0 1)) ⟨p, c₁, evs, some .done⟩ = ⟨p, d, evs, some .done⟩ :=
    issue_command_performed (i := .fmul 2 0 1) hr₁ ⟨hv0, hv1⟩ evs _
  obtain ⟨r₂, hfetch⟩ : ∃ r', fetchBuffer c.k 2 ⟨p, d, evs, some (.data d.statusWord)⟩ =
      (d.stored 2, ⟨p, d, evs, r'⟩) := by
    rw [← hkd]
    exact fetchBuffer_eq (Block.fermatMul_legal hl₁ 2 0 1) evs _ 2
  have hvalue : d.stored 2 + 2 ^ c.k * d.sf[(2 : Buf)].toNat = x * y % (2 ^ c.k + 1) := by
    have htrue : d.trueValue 2 = c₁.trueValue 0 * c₁.trueValue 1 % (2 ^ c.k + 1) :=
      Block.fermatMul_trueValue hl₁ 2 0 1
    rwa [ht0, ht1, Block.trueValue, hkd, Nat.mul_comm] at htrue
  refine ⟨d, some (.data d.flagsWord), ?_, herr⟩
  simp only [fermatOnBlock, hprologue, hload, hmul, ask_rdst, statusErr_of_ready hrd, hfetch, ask_rdf,
    Block.flagsWord_two, hvalue, ne_eq, not_true_eq_false, if_false]

/-- Settles O56: the comparison is with what was read back. -/
theorem crossCheckFermatAgrees : Obligations.CrossCheckFermatAgrees := by
  intro p b evs r k x y hk hmax hx hy
  obtain ⟨b', r', hblock, herr⟩ := fermatOnBlock_eq (Nat.ne_of_gt hk) hmax hx hy b evs r
  exact ⟨b', r', hblock, by rw [crossCheckFermat, hblock, compareWith_self], herr⟩

/-- From every state the block's part of the Mersenne cross-check reads back the product modulo 2^k-1. -/
theorem mersenneOnBlock_eq {k x y : Nat} (hk : k ≠ 0) (hmax : k ≤ kmax p) (hx : x < 2 ^ k) (hy : y < 2 ^ k)
    (b : Block p) (evs : List (Event p)) (r : Option (Reply p)) :
    ∃ (b' : Block p) (r' : Option (Reply p)),
      mersenneOnBlock k x y ⟨p, b, evs, r⟩ = .ok (x * y % (2 ^ k - 1), ⟨p, b', evs, r'⟩) ∧ b'.err = .none := by
  obtain ⟨c, r₁, hprologue, rfl, hr, hl⟩ := prologue_ready hk hmax b evs r
  obtain ⟨hs0, hs1⟩ := Block.withOperands_stored hl hx hy
  let c₁ := c.withOperands x y
  obtain ⟨r₂, hload⟩ : ∃ r', issue _ (issue _ ⟨p, c, evs, r₁⟩) = ⟨p, c₁, evs, r'⟩ := issue_operands hl evs r₁ x y
  let d := c₁.mersenneMul 2 0 1
  have hr₁ : c₁.Ready := hr
  have hl₁ : c₁.Legal := hl
  have hrd : d.Ready := Block.mersenneMul_ready hr₁ 2 0 1
  have ⟨herr, _⟩ := hrd
  have hv0 : c₁.validMersenne 0 = true := (c₁.validMersenne_iff 0).mpr (hs0.trans_lt hx)
  have hv1 : c₁.validMersenne 1 = true := (c₁.validMersenne_iff 1).mpr (hs1.trans_lt hy)
  have hmul : issue (.command (.mmul 2 0 1)) ⟨p, c₁, evs, r₂⟩ = ⟨p, d, evs, some .done⟩ :=
    issue_command_performed (i := .mmul 2 0 1) hr₁ ⟨hv0, hv1⟩ evs _
  obtain ⟨r₃, hfetch⟩ : ∃ r', fetchBuffer c.k 2 ⟨p, d, evs, some (.data d.statusWord)⟩ =
      (d.stored 2, ⟨p, d, evs, r'⟩) := fetchBuffer_eq (Block.mersenneMul_legal hl₁ 2 0 1) evs _ 2
  have hvalue : d.stored 2 = x * y % (2 ^ c.k - 1) := by
    have hstored : d.stored 2 = c₁.stored 0 * c₁.stored 1 % (2 ^ c.k - 1) := Block.mersenneMul_stored hr₁ hl₁ 2 0 1
    rwa [hs0, hs1] at hstored
  refine ⟨d, r₃, ?_, herr⟩
  simp only [mersenneOnBlock, hprologue, Nat.mod_eq_of_lt hx, Nat.mod_eq_of_lt hy, hload, hmul, ask_rdst,
    statusErr_of_ready hrd, ne_eq, not_true_eq_false, if_false, hfetch, hvalue]

/-- Settles O57: the comparison is with what was read back. -/
theorem crossCheckMersenneAgrees : Obligations.CrossCheckMersenneAgrees := by
  intro p b evs r k x y hk hmax hx hy
  have hpow := Nat.two_pow_pos k
  obtain ⟨b', r', hblock, herr⟩ :=
    mersenneOnBlock_eq (Nat.ne_of_gt hk) hmax (by omega : x < 2 ^ k) (by omega : y < 2 ^ k) b evs r
  exact ⟨b', r', hblock, by rw [crossCheckMersenne, hblock, compareWith_self], herr⟩

end Sys2Proof.Machine
end

section
/-! The statements about the errors: what a write to CMD and a write of KEXP make of the block, what the gate does in
the order of `60_exceptions.md` R197, and that no other event is gated, then the obligations of `60_exceptions.md`. -/

namespace Sys2Proof.Machine

variable {p : Params}

/-! ## The writes that can raise an error -/

/-- A write to address 1 is the checked write of KEXP (`60_exceptions.md` R193). -/
theorem step_write_kexp (b : Block p) (evs : List (Event p)) (r : Option (Reply p)) (d : Word p.w) :
    step ⟨p, b, .write 1 d :: evs, r⟩ = .next ⟨p, b.writeKexp d, evs, some .done⟩ :=
  busWrite_of_target b evs r d (target_addr .kexp)

/-- A write to CMD of a word that is no command (`60_exceptions.md` R194). -/
theorem step_write_cmd_of_error (b : Block p) (evs : List (Event p)) (r : Option (Reply p)) {d : Word p.w} {x : Illegal}
    (hd : decode d = .error x) :
    step ⟨p, b, .write 4 d :: evs, r⟩ = .next ⟨p, b.raise .illcmd, evs, some .done⟩ := by
  rw [step_write, busWrite_of_target (a := 4) b evs r d (target_addr .cmd), issueCommand_error b evs r hd,
    completed_next, State.withReply_mk]

/-- A write to CMD of a command puts the command's effect behind the gate (`60_exceptions.md` R197). -/
theorem step_write_cmd_of_ok (b : Block p) (evs : List (Event p)) (r : Option (Reply p)) {d : Word p.w} {i : Instr}
    (hd : decode d = .ok i) :
    step ⟨p, b, .write 4 d :: evs, r⟩ = .next ⟨p, b.gated (b.checked i) (b.effect i), evs, some .done⟩ := by
  rw [stepRunsTheDecodedCommand p b evs r d i hd, exec_eq, completed_next, State.withReply_mk]

/-! ## The gate (60_exceptions.md R197) -/

/-- Raising an error is gated by line 1 only. -/
theorem Block.raise_eq_ite (b : Block p) (c : ErrCode) :
    b.raise c = if b.err ≠ .none then b else { b with err := c } := by
  rw [ite_not, Block.raise]

/-- The gate as the list of its lines, with the code that each one records. -/
theorem Block.gated_eq_ite (b : Block p) (valid : Bool) (performed : Block p) :
    b.gated valid performed =
      if b.err ≠ .none then b
      else if b.k = 0 then { b with err := .invexp }
      else if valid = true then performed
      else { b with err := .range } := by
  rcases b.gated_cases valid performed with ⟨he, h⟩ | ⟨he, hk, h⟩ | ⟨he, hk, hv, h⟩ | ⟨he, hk, hv, h⟩
  · rw [h, if_pos he]
  · rw [h, if_neg (not_not.mpr he), if_pos hk]
  · rw [h, if_neg (not_not.mpr he), if_neg hk, if_neg (Bool.eq_false_iff.mp hv)]
  · rw [h, if_neg (not_not.mpr he), if_neg hk, if_pos hv]

/-- Without an exponent every command is refused by line 3, or dropped by line 1. -/
theorem Block.gated_of_k_eq_zero (b : Block p) (valid : Bool) (performed : Block p) (hk : b.k = 0) :
    b.gated valid performed = b.raise .invexp := by
  rw [b.gated_eq_ite, b.raise_eq_ite, if_pos hk]

/-- On a ready block a command with an invalid operand is refused by line 4. -/
theorem exec_refused {i : Instr} {b : Block p} (hr : b.Ready) (hv : ¬ b.OperandsValid i) (evs : List (Event p))
    (r : Option (Reply p)) : exec i ⟨p, b, evs, r⟩ = .next ⟨p, { b with err := .range }, evs, r⟩ := by
  obtain ⟨herr, hk⟩ := hr
  rw [exec_eq, b.gated_eq_ite, if_neg (not_not.mpr herr), if_neg hk, if_neg ((b.checked_iff i).not.mpr hv)]

/-- A performed command leaves a ready block without an error. -/
theorem Block.effect_err_of_ready {b : Block p} (hr : b.Ready) (i : Instr) : (b.effect i).err = .none := by
  obtain ⟨herr, _⟩ := hr
  obtain ⟨_, _, _, _, hkept⟩ := b.effect_frame i
  exact hkept.trans herr

/-- On a ready block a command with valid operands ends without an error. -/
theorem exec_accepted {i : Instr} {b : Block p} (hr : b.Ready) (hv : b.OperandsValid i) (evs : List (Event p))
    (r : Option (Reply p)) :
    ∃ b' : Block p, exec i ⟨p, b, evs, r⟩ = .next ⟨p, b', evs, r⟩ ∧ b'.err = .none :=
  ⟨b.effect i, exec_performed hr hv evs r, Block.effect_err_of_ready hr i⟩

/-! ## The operand check (60_exceptions.md R195) -/

/-- The two ways in which a buffer fails to hold a Fermat residue. -/
theorem Block.not_validFermat_iff (b : Block p) (j : Buf) :
    ¬ b.validFermat j = true ↔ 2 ^ b.k ≤ b.stored j ∨ b.sf[j] = true ∧ b.stored j ≠ 0 := by
  rw [b.validFermat_iff, not_and_or, Nat.not_lt, Classical.not_imp]

theorem Block.not_validMersenne_iff (b : Block p) (j : Buf) : ¬ b.validMersenne j = true ↔ 2 ^ b.k ≤ b.stored j := by
  rw [b.validMersenne_iff, Nat.not_lt]

theorem Block.not_operandsValid_fmul_iff (b : Block p) (rd ra rb : Buf) :
    ¬ b.OperandsValid (.fmul rd ra rb) ↔
      (2 ^ b.k ≤ b.stored ra ∨ b.sf[ra] = true ∧ b.stored ra ≠ 0) ∨
        (2 ^ b.k ≤ b.stored rb ∨ b.sf[rb] = true ∧ b.stored rb ≠ 0) := by
  rw [Block.OperandsValid, not_and_or, b.not_validFermat_iff, b.not_validFermat_iff]

theorem Block.not_operandsValid_mmul_iff (b : Block p) (rd ra rb : Buf) :
    ¬ b.OperandsValid (.mmul rd ra rb) ↔ 2 ^ b.k ≤ b.stored ra ∨ 2 ^ b.k ≤ b.stored rb := by
  rw [Block.OperandsValid, not_and_or, b.not_validMersenne_iff, b.not_validMersenne_iff]

/-! ## Events that are not gated (60_exceptions.md R197) -/

/-- What `f` makes of a block does not depend on ERR, but for ERR itself. -/
def Block.ErrBlind (f : Block p → Block p) : Prop :=
  ∀ (b : Block p) (c : ErrCode), { f { b with err := c } with err := (f b).err } = f b

theorem Block.raise_errBlind (c : ErrCode) : Block.ErrBlind (fun b : Block p => b.raise c) := by
  intro b c'
  simp only [Block.raise_eq]

/-- The data alone decides which check of a write of KEXP answers. -/
theorem Block.writeKexp_errBlind (d : Word p.w) : Block.ErrBlind (fun b : Block p => b.writeKexp d) := by
  by_cases h0 : d.toNat = 0
  · simpa only [Block.writeKexp_of_zero _ h0] using Block.raise_errBlind .invexp
  by_cases hmax : d.toNat ≤ kmax p
  · simp only [Block.writeKexp_of_legal _ h0 hmax]
    exact fun _ _ => rfl
  · simpa only [Block.writeKexp_of_large _ (Nat.lt_of_not_le hmax)] using Block.raise_errBlind .alloc

theorem Block.writeStatus_errBlind (d : Word p.w) : Block.ErrBlind (fun b : Block p => b.writeStatus d) := by
  intro b c
  simp only [Block.writeStatus_eq]

/-- A bus write to any address but CMD's has an effect on the block in which ERR plays no part. -/
theorem busWrite_errBlind {a : Nat} (d : Word p.w) (ha : a ≠ 4) :
    ∃ (f : Block p → Block p) (r' : Reply p), Block.ErrBlind f ∧
      ∀ b evs r, busWrite ⟨p, b, evs, r⟩ a d = .next ⟨p, f b, evs, some r'⟩ := by
  cases ht : target p a with
  | none => exact ⟨id, .writeError, fun _ _ => rfl, fun b evs r => busWrite_of_none b evs r d ht⟩
  | some t =>
    have hwrite (b : Block p) (evs) (r) := busWrite_of_target b evs r d ht
    cases t with
    | cmd => exact absurd (addr_of_target ht) ha
    | cap => exact ⟨id, .writeError, fun _ _ => rfl, hwrite⟩
    | nlimb => exact ⟨id, .writeError, fun _ _ => rfl, hwrite⟩
    | kexp => exact ⟨_, .done, Block.writeKexp_errBlind d, hwrite⟩
    | val => exact ⟨fun b => { b with val := d }, .done, fun _ _ => rfl, hwrite⟩
    | status => exact ⟨_, .done, Block.writeStatus_errBlind d, hwrite⟩
    | flags => exact ⟨fun b => b.writeFlags d, .done, fun _ _ => rfl, hwrite⟩
    | limb j i => exact ⟨fun b => b.setLimb j i d, .done, fun _ _ => rfl, hwrite⟩

/-- Every event but a write to CMD has an effect on the block in which ERR plays no part; only the reply to a read may
show it. -/
theorem step_errBlind {e : Event p} (he : ∀ d, e ≠ .write 4 d) :
    ∃ (f : Block p → Block p) (reply : Block p → Option (Reply p)), Block.ErrBlind f ∧
      ∀ b evs r, step ⟨p, b, e :: evs, r⟩ = .next ⟨p, f b, evs, reply b⟩ := by
  cases e with
  | read a => exact ⟨id, fun b => some (b.read a), fun _ _ => rfl, fun b evs r => step_read b evs r a⟩
  | reset fill => exact ⟨fun _ => Block.afterReset fill, fun _ => none, fun _ _ => rfl, fun _ _ _ => rfl⟩
  | write a d =>
    have ha : a ≠ 4 := by
      rintro rfl
      exact he d rfl
    obtain ⟨f, r', hf, hwrite⟩ := busWrite_errBlind d ha
    exact ⟨f, fun _ => some r', hf, hwrite⟩

/-! ## The errors (tier 2) -/

/-- Settles O11: each range of the data has its own case of the checked write. -/
theorem kexpWriteIsChecked : Obligations.KexpWriteIsChecked := by
  intro p b evs r d
  refine ⟨.done, rfl, fun hzero => ?_, fun hlarge => ?_, fun hpos hmax => ?_⟩
  · rw [step_write_kexp, b.writeKexp_of_zero hzero, b.raise_eq]
  · rw [step_write_kexp, b.writeKexp_of_large hlarge, b.raise_eq]
  · rw [step_write_kexp, b.writeKexp_of_legal (Nat.ne_of_gt hpos) hmax]

/-- Settles O17: the first check of a write of KEXP, and line 3 of the gate for every command. -/
theorem invexpCauses : Obligations.InvexpCauses := by
  intro p b evs r
  refine ⟨⟨.done, rfl, ?_⟩, fun hk i => ?_⟩
  · rw [step_write_kexp, b.writeKexp_of_zero BitVec.toNat_zero, b.raise_eq]
  · rw [exec_eq, b.gated_of_k_eq_zero _ _ hk, b.raise_eq]

/-- Settles O18: a word that is no command's word does not decode. -/
theorem illegalCommandRaisesIllcmd : Obligations.IllegalCommandRaisesIllcmd := by
  intro p b evs r d hd
  obtain ⟨x, hx⟩ := decode_eq_error_of_ne hd
  exact ⟨.done, rfl, by rw [step_write_cmd_of_error b evs r hx, b.raise_eq]⟩

/-- Settles O19: RANGE is the failed operand check, and LDS, ADDS and SUBS have none. -/
theorem rangeCauses : Obligations.RangeCauses := by
  intro p b evs r hr rd ra rb
  have hfmul := b.not_operandsValid_fmul_iff rd ra rb
  have hmmul := b.not_operandsValid_mmul_iff rd ra rb
  exact ⟨fun hbad => exec_refused hr (hfmul.mpr hbad) evs r,
    fun hgood => exec_accepted hr (not_not.mp (hfmul.not.mpr hgood)) evs r,
    fun hbad => exec_refused hr (hmmul.mpr hbad) evs r,
    fun hgood => exec_accepted hr (not_not.mp (hmmul.not.mpr hgood)) evs r,
    exec_accepted (i := .lds rd) hr trivial evs r, exec_accepted (i := .adds rd) hr trivial evs r,
    exec_accepted (i := .subs rd) hr trivial evs r⟩

/-- Settles O21: an illegal word stops at line 2, a command passes the gate line by line, and every other event is
blind to ERR. -/
theorem commandGateAndOrderOfChecks : Obligations.CommandGateAndOrderOfChecks := by
  intro p b evs r
  refine ⟨fun d => ⟨.done, rfl, ?_⟩, fun e c he => ?_⟩
  · cases hd : decode d with
    | error x => rw [step_write_cmd_of_error b evs r hd, b.raise_eq_ite]
    | ok i =>
      rw [step_write_cmd_of_ok b evs r hd, b.gated_eq_ite]
      cases i with
      | lds rd => rfl
      | adds rd => rfl
      | subs rd => rfl
      | fmul rd ra rb => simp only [Block.k, Block.checked, Block.effect, Bool.and_eq_true]
      | mmul rd ra rb => simp only [Block.k, Block.checked, Block.effect, Bool.and_eq_true]
  · obtain ⟨f, reply, hf, hstep⟩ := step_errBlind he
    exact ⟨f b, f { b with err := c }, reply b, reply { b with err := c }, hstep b evs r,
      hstep { b with err := c } evs r, hf b c⟩

/-- Settles O22: the command passes the gate, and its effect keeps ERR. -/
theorem goodCommandsEndWell : Obligations.GoodCommandsEndWell := by
  intro p b evs r d i hr hv hd
  refine ⟨⟨p, b.effect i, evs, some .done⟩, ?_, Block.effect_err_of_ready hr i, ?_⟩
  · rw [stepRunsTheDecodedCommand p b evs r d i hd, exec_performed hr hv, completed_next, State.withReply_mk]
  · rintro _ ⟨⟩
    rfl

/-! ## Tier 1 -/

/-- Settles O7: nothing is offered, and the block is idle. -/
theorem idleStepKeepsState : Obligations.IdleStepKeepsState := step_nil

end Sys2Proof.Machine
end
